-- ==== Sys2Proof/Word.lean ====
section
/-! DEFINITION. Word.lean: the word types of the Keccak round engine (00_scope.md R10 to R12, 10_state.md R20, R21). -/

namespace Sys2Proof

/-- One byte of memory. -/
abbrev Byte := BitVec 8

/-- A host-visible 32-bit register value, or a command word (R27, R91). -/
abbrev Word := BitVec 32

/-- A lane: `n` elements of `w` bits (R12, R21). A scalar lane is the case `n = 1`; a lane of VN has `n = N`
elements of 64 bits, element `j` belonging to logical state `j`. -/
abbrev Lane (w n : Nat) := Vector (BitVec w) n

/-- A permutation state: always 25 lanes (R7, R20). Lane (x, y) has index `5*y + x` (R11). -/
abbrev KState (w n : Nat) := Vector (Lane w n) 25

/-- `n` separate 64-bit states, as the state-major layout holds them (20_memory.md R63). -/
abbrev KStates (n : Nat) := Vector (KState 64 1) n

end Sys2Proof
end

