-- ==== Sys2Proof/Syntax.lean ====
section
/-! DEFINITION. Syntax.lean: the commands, one constructor per row of spec/opcode_table.json (30_encoding.md R96). -/

namespace Sys2Proof

/-- The seven lane types (00_scope.md R6, 30_encoding.md R92). -/
inductive LaneType where
  | w8
  | w16
  | w32
  | w64
  | v2
  | v4
  | v8
  deriving DecidableEq, Repr

/-- The commands. `ns` is the state count field NS (R93), `nr` the round count NR and `rci` the round-constant index
RCI (R94): unsigned, unscaled fields of the command word. -/
inductive Instr where
  | theta (lt : LaneType) (ns : BitVec 4)
  | rhopi (lt : LaneType) (ns : BitVec 4)
  | chi (lt : LaneType) (ns : BitVec 4)
  | iota (lt : LaneType) (ns : BitVec 4) (rci : BitVec 5)
  | round (lt : LaneType) (ns : BitVec 4) (rci : BitVec 5)
  | permute (lt : LaneType) (ns : BitVec 4) (nr : BitVec 5)
  | pack (ns : BitVec 4)
  | unpack (ns : BitVec 4)
  | armP1 (ns : BitVec 4) (nr : BitVec 5)
  | armP2 (ns : BitVec 4) (nr : BitVec 5)
  | avx2P4 (ns : BitVec 4) (nr : BitVec 5)
  | probe
  | dispatch (lt : LaneType) (nr : BitVec 5)
  | pdegree
  | permuteSel (ns : BitVec 4)
  deriving DecidableEq, Repr

end Sys2Proof
end

