-- ==== Sys2Proof/WellFormed.lean ====
section
/-! DEFINITION. WellFormed.lean: which command terms have an encoding that is not reserved (30_encoding.md R94, R98). -/

namespace Sys2Proof

/-- A command is well formed when its words are no reserved encoding. Every other field bound is carried by the field's
type (LW 0 to 6 by `LaneType`, NS and NR by their widths); what is left is that RCI 24 to 31 is reserved for IOTA and
ROUND (R94, R98). A wrong NS or NR is legal in form (R99). -/
def Instr.wf : Instr → Bool
  | .iota _ _ rci => decide (rci.toNat < 24)
  | .round _ _ rci => decide (rci.toNat < 24)
  | .theta _ _ => true
  | .rhopi _ _ => true
  | .chi _ _ => true
  | .permute _ _ _ => true
  | .pack _ => true
  | .unpack _ => true
  | .armP1 _ _ => true
  | .armP2 _ _ => true
  | .avx2P4 _ _ => true
  | .probe => true
  | .dispatch _ _ => true
  | .pdegree => true
  | .permuteSel _ => true

end Sys2Proof
end

