-- ==== Sys2Proof/Decode.lean ====
section
/-! DEFINITION. Decode.lean: the command word's fields, the opcode map, the decoder and the encoder (30_encoding.md R91
to R100). -/

namespace Sys2Proof

/-! ### Fields (R91) -/

/-- OPC, bits 31:24. -/
def opcField (v : Word) : BitVec 8 := v.extractLsb' 24 8
/-- LW, bits 23:20. -/
def lwField (v : Word) : BitVec 4 := v.extractLsb' 20 4
/-- RSV1, bits 19:12. -/
def rsv1Field (v : Word) : BitVec 8 := v.extractLsb' 12 8
/-- NS, bits 11:8. -/
def nsField (v : Word) : BitVec 4 := v.extractLsb' 8 4
/-- RSV0, bits 7:5. -/
def rsv0Field (v : Word) : BitVec 3 := v.extractLsb' 5 3
/-- NR, or RCI for IOTA and ROUND, bits 4:0. -/
def nrField (v : Word) : BitVec 5 := v.extractLsb' 0 5

/-! ### Lane-type codes (R92) -/

/-- The code of a lane type in field LW (R92). -/
def LaneType.code : LaneType → BitVec 4
  | .w8 => 0
  | .w16 => 1
  | .w32 => 2
  | .w64 => 3
  | .v2 => 4
  | .v4 => 5
  | .v8 => 6

/-- The lane types in the order of their codes. -/
def LaneType.all : List LaneType := [.w8, .w16, .w32, .w64, .v2, .v4, .v8]

/-- The lane type of a code; codes 7 to 15 are reserved (R92). -/
def LaneType.ofCode (c : BitVec 4) : Option LaneType := LaneType.all.find? (fun lt => lt.code == c)

/-! ### Opcodes (R96, R97) -/

/-- The opcodes, by the command they name. -/
inductive Opcode where
  | theta
  | rhopi
  | chi
  | iota
  | round
  | permute
  | pack
  | unpack
  | armP1
  | armP2
  | avx2P4
  | probe
  | dispatch
  | pdegree
  | permuteSel
  deriving DecidableEq, Repr

/-- The OPC number of an opcode (R96). -/
def Opcode.code : Opcode → BitVec 8
  | .theta => 0x01
  | .rhopi => 0x02
  | .chi => 0x03
  | .iota => 0x04
  | .round => 0x05
  | .permute => 0x10
  | .pack => 0x18
  | .unpack => 0x19
  | .armP1 => 0x20
  | .armP2 => 0x21
  | .avx2P4 => 0x28
  | .probe => 0x30
  | .dispatch => 0x31
  | .pdegree => 0x32
  | .permuteSel => 0x33

/-- Every opcode of R96. -/
def Opcode.all : List Opcode :=
  [.theta, .rhopi, .chi, .iota, .round, .permute, .pack, .unpack, .armP1, .armP2, .avx2P4, .probe, .dispatch,
    .pdegree, .permuteSel]

/-- The opcode an OPC number names, if any (R96). -/
def Opcode.ofCode (c : BitVec 8) : Option Opcode := Opcode.all.find? (fun o => o.code == c)

/-- Does the opcode use LW (R96, column LW)? Where it does not, LW must be 0. -/
def Opcode.usesLw : Opcode → Bool
  | .theta | .rhopi | .chi | .iota | .round | .permute | .dispatch => true
  | .pack | .unpack | .armP1 | .armP2 | .avx2P4 | .probe | .pdegree | .permuteSel => false

/-- Is NS an operand of the opcode (R96, R97)? Where it is not, NS must be 0. -/
def Opcode.usesNs : Opcode → Bool
  | .theta | .rhopi | .chi | .iota | .round | .permute | .pack | .unpack | .armP1 | .armP2 | .avx2P4
  | .permuteSel => true
  | .probe | .dispatch | .pdegree => false

/-- Are bits 4:0 an operand of the opcode (R96, column NR / RCI)? Where they are not, they must be 0. -/
def Opcode.usesNr : Opcode → Bool
  | .iota | .round | .permute | .armP1 | .armP2 | .avx2P4 | .dispatch => true
  | .theta | .rhopi | .chi | .pack | .unpack | .probe | .pdegree | .permuteSel => false

/-- Are bits 4:0 a round-constant index RCI (R94)? -/
def Opcode.usesRci : Opcode → Bool
  | .iota | .round => true
  | .theta | .rhopi | .chi | .permute | .pack | .unpack | .armP1 | .armP2 | .avx2P4 | .probe | .dispatch
  | .pdegree | .permuteSel => false

/-- The mask of an opcode, as R97 lists it. -/
def Opcode.mask : Opcode → Word
  | .theta | .rhopi | .chi => 0xFF0FF0FF
  | .iota | .round | .permute => 0xFF0FF0E0
  | .pack | .unpack | .permuteSel => 0xFFFFF0FF
  | .armP1 | .armP2 | .avx2P4 => 0xFFFFF0E0
  | .dispatch => 0xFF0FFFE0
  | .probe | .pdegree => 0xFFFFFFFF

/-- The match value of an opcode: OPC<<24 (R97). -/
def Opcode.matchWord (o : Opcode) : Word := o.code.setWidth 32 <<< 24

/-! ### The decoder -/

/-- Why a word is a reserved encoding (R98). Each of them raises Abort(E_RESERVED). -/
inductive DecodeError where
  /-- OPC is not in R96; the all-zero word is one of these. -/
  | unknownOpcode
  /-- RSV1 or RSV0 is nonzero. -/
  | reservedBits
  /-- A field that R96 marks "0" is nonzero. -/
  | mustBeZero
  /-- LW is 7 to 15 in an opcode that uses LW. -/
  | reservedLane
  /-- RCI is 24 to 31 in IOTA or ROUND. -/
  | reservedRci
  deriving DecidableEq, Repr

/-- The command an opcode makes of its operand fields. -/
def Opcode.build (o : Opcode) (lt : LaneType) (ns : BitVec 4) (nr : BitVec 5) : Instr :=
  match o with
  | .theta => .theta lt ns
  | .rhopi => .rhopi lt ns
  | .chi => .chi lt ns
  | .iota => .iota lt ns nr
  | .round => .round lt ns nr
  | .permute => .permute lt ns nr
  | .pack => .pack ns
  | .unpack => .unpack ns
  | .armP1 => .armP1 ns nr
  | .armP2 => .armP2 ns nr
  | .avx2P4 => .avx2P4 ns nr
  | .probe => .probe
  | .dispatch => .dispatch lt nr
  | .pdegree => .pdegree
  | .permuteSel => .permuteSel ns

/-- Decode one command word (R90, R91, R96 to R98): total, and every reserved encoding is rejected by name. An opcode
that does not use LW requires LW = 0, the code of W8, which carries no lane-type meaning there (R92). -/
def decode (v : Word) : Except DecodeError Instr :=
  match Opcode.ofCode (opcField v) with
  | none => .error .unknownOpcode
  | some o =>
    if rsv1Field v ≠ 0 ∨ rsv0Field v ≠ 0 then .error .reservedBits
    else if (o.usesLw = false ∧ lwField v ≠ 0) ∨ (o.usesNs = false ∧ nsField v ≠ 0)
        ∨ (o.usesNr = false ∧ nrField v ≠ 0) then .error .mustBeZero
    else
      match LaneType.ofCode (lwField v) with
      | none => .error .reservedLane
      | some lt =>
        if o.usesRci = true ∧ 24 ≤ (nrField v).toNat then .error .reservedRci
        else .ok (o.build lt (nsField v) (nrField v))

/-- The instruction the decoder reads from an instruction of `nbits` bits whose bits are `w`, numbered as
spec/opcode_table.json numbers them; every bit above `nbits` is 0. A command is one 32-bit word (R100). -/
def decodeTableWord (nbits w : Nat) : Option Instr :=
  match decode (BitVec.ofNat 32 (w % 2 ^ nbits)) with
  | .ok i => some i
  | .error _ => none

/-! ### The encoder -/

/-- The opcode of a command. -/
def Instr.opcode : Instr → Opcode
  | .theta _ _ => .theta
  | .rhopi _ _ => .rhopi
  | .chi _ _ => .chi
  | .iota _ _ _ => .iota
  | .round _ _ _ => .round
  | .permute _ _ _ => .permute
  | .pack _ => .pack
  | .unpack _ => .unpack
  | .armP1 _ _ => .armP1
  | .armP2 _ _ => .armP2
  | .avx2P4 _ _ => .avx2P4
  | .probe => .probe
  | .dispatch _ _ => .dispatch
  | .pdegree => .pdegree
  | .permuteSel _ => .permuteSel

/-- Lay out the fields of the one command format (R91), OPC in the most significant place. -/
def packWord (opc : BitVec 8) (lw ns : BitVec 4) (nr : BitVec 5) : Word :=
  opc ++ lw ++ 0#8 ++ ns ++ 0#3 ++ nr

/-- The command word of an instruction (R91, R92, R96). -/
def encode : Instr → Word
  | .theta lt ns => packWord 0x01 lt.code ns 0
  | .rhopi lt ns => packWord 0x02 lt.code ns 0
  | .chi lt ns => packWord 0x03 lt.code ns 0
  | .iota lt ns rci => packWord 0x04 lt.code ns rci
  | .round lt ns rci => packWord 0x05 lt.code ns rci
  | .permute lt ns nr => packWord 0x10 lt.code ns nr
  | .pack ns => packWord 0x18 0 ns 0
  | .unpack ns => packWord 0x19 0 ns 0
  | .armP1 ns nr => packWord 0x20 0 ns nr
  | .armP2 ns nr => packWord 0x21 0 ns nr
  | .avx2P4 ns nr => packWord 0x28 0 ns nr
  | .probe => packWord 0x30 0 0 0
  | .dispatch lt nr => packWord 0x31 lt.code 0 nr
  | .pdegree => packWord 0x32 0 0 0
  | .permuteSel ns => packWord 0x33 0 ns 0

end Sys2Proof
end

