-- ==== Sys2Proof/Config.lean ====
section
/-! DEFINITION. Config.lean: the parameters the spec leaves open (00_scope.md R9) and the free values.

The parameters are plain data that `State` carries and no step changes, so that a statement about every state is a
statement about every host. The free values are constants without a body. -/

namespace Sys2Proof

/-- `HOST_ARCH`: the host CPU family (R9). -/
inductive HostArch where
  | aarch64
  | x86_64
  | other
  deriving DecidableEq, Repr

/-- A region of memory the host handed to the block: `size` bytes from `base`. -/
structure Region where
  base : Nat
  size : Nat
  deriving DecidableEq, Repr

/-- The open parameters of R9: HOST_ARCH, HOST_SHA3, HOST_AVX2, ADDR_WIDTH, and MEM_ADMIT as the list of regions the
host handed to the block. They are fixed for a whole run (D26). -/
structure HostParams where
  arch : HostArch
  sha3 : Bool
  avx2 : Bool
  addrWidth : Nat
  admitted : List Region
  deriving DecidableEq, Repr

/-- A lane of the engine's working registers: wide enough for any lane type (at most 8 elements of 64 bits). -/
abbrev WorkLane := Vector (BitVec 64) 8

/-- The internal working state (10_state.md R34, R35): the working copy WS, the column parities C, the carried lane
LAST, the row snapshot ROW, the round counter RI, and the vector registers of the two kernels. Its value outside a
command is unspecified and no rule reads it. -/
structure EngineWork where
  ws : Vector WorkLane 25
  c : Vector WorkLane 5
  last : WorkLane
  row : Vector WorkLane 5
  ri : BitVec 5
  armRegs : Vector (BitVec 128) 25
  avx2Regs : Vector (BitVec 256) 25
  deriving DecidableEq, Repr, Inhabited

/-- Free value: what the working state holds after a command or a reset (R34, R35, R340: unspecified). The argument
counts the free values drawn so far. Assumption 7. -/
opaque Config.freeWork : Nat → EngineWork

/-- Free value: the dummy second state ARM_P1 pairs with the caller's state (43_arm_sha3.md R223: any 25-lane value,
never observable). Assumption 12. -/
opaque Config.dummyState : KState 64 1

/-- DESIGN CHOICE (assumption 1): the host of `State.reset`. R9 leaves every field open. -/
def Config.resetHost : HostParams :=
  ⟨.other, false, false, 64, [⟨0, 2 ^ 64⟩]⟩

/-- DESIGN CHOICE (assumption 7): the working state of `State.reset`; no rule reads it. -/
def Config.resetWork : EngineWork :=
  let zero : WorkLane := Vector.replicate 8 0
  ⟨Vector.replicate 25 zero, Vector.replicate 5 zero, zero, Vector.replicate 5 zero, 0,
    Vector.replicate 25 0, Vector.replicate 25 0⟩

end Sys2Proof
end

