-- ==== Sys2Proof/Machine/Sparse.lean ====
section
/-! DEFINITION. Machine/Sparse.lean: a total map from Nat held as plain data, in one canonical form.

Memory and the register sets of the host threads are both held so: a list of (key, value) pairs, keys strictly rising,
no entry equal to the value `d` that an unlisted key reads as. -/

namespace Sys2Proof.Machine

/-- The value at key `a`; an unlisted key reads as `d`. -/
def Sparse.get {α : Type} (d : α) : List (Nat × α) → Nat → α
  | [], _ => d
  | (k, v) :: t, a => if k = a then v else Sparse.get d t a

/-- Insert or replace the entry of key `a`. -/
def Sparse.insert {α : Type} : List (Nat × α) → Nat → α → List (Nat × α)
  | [], a, v => [(a, v)]
  | (k, w) :: t, a, v =>
    if a < k then (a, v) :: (k, w) :: t
    else if k = a then (a, v) :: t
    else (k, w) :: Sparse.insert t a v

/-- Write `v` at key `a`, keeping the canonical form: writing `d` removes the entry. -/
def Sparse.put {α : Type} [DecidableEq α] (d : α) (l : List (Nat × α)) (a : Nat) (v : α) : List (Nat × α) :=
  if v = d then l.filter fun e => decide (e.1 ≠ a) else Sparse.insert l a v

/-- Keys strictly rising from `lo` on, and no entry equal to `d`. -/
def Sparse.wfFrom {α : Type} [DecidableEq α] (d : α) : Nat → List (Nat × α) → Bool
  | _, [] => true
  | lo, (k, v) :: t => decide (lo ≤ k) && decide (v ≠ d) && Sparse.wfFrom d (k + 1) t

/-- The canonical form. -/
def Sparse.wf {α : Type} [DecidableEq α] (d : α) (l : List (Nat × α)) : Bool := Sparse.wfFrom d 0 l

end Sys2Proof.Machine
end

