-- ==== Sys2Proof/Machine/State.lean ====
section
/-! DEFINITION. Machine/State.lean: the state of the block and its hosts, as plain data (10_state.md, 20_memory.md,
60_exceptions.md, 70_reset_and_hazards.md). -/

namespace Sys2Proof.Machine

/-! ### Registers -/

/-- The abort codes (60_exceptions.md R300). -/
inductive AbortCode where
  /-- NR above the command's maximum. -/
  | roundsExceed
  /-- NR = 0 where 1..24 is required. -/
  | roundsZero
  /-- NS differs from the required number of states. -/
  | stateCount
  /-- A wrapper command on a host without its extension. -/
  | noCapability
  /-- A reserved encoding. -/
  | reserved
  /-- BASE is not a multiple of the command's alignment. -/
  | misaligned
  /-- PDEGREE or PERMUTE_SEL while SEL.VALID = 0. -/
  | noSelection
  deriving DecidableEq, Repr

/-- STATUS, register 2 (R30): bit 0 ABORTED, bits 7:4 ECODE; the other bits are reserved and read as 0. -/
structure Status where
  aborted : Bool
  ecode : BitVec 4
  deriving DecidableEq, Repr

/-- The backends, field SEL.BACKEND (R32). -/
inductive Backend where
  | portable
  | armP1
  | armP2
  | avx2P4
  deriving DecidableEq, Repr

/-- SEL, register 4 (R32): bit 0 VALID, bits 7:4 LW, bits 12:8 NR, bits 17:16 BACKEND; the other bits are reserved and
read as 0. -/
structure Sel where
  valid : Bool
  lane : LaneType
  nr : BitVec 5
  backend : Backend
  deriving DecidableEq, Repr

/-- CAP, register 3 (R31), shared by all host threads: bit 0 PROBED, bit 1 SHA3, bit 2 AVX2; the other bits are reserved
and read as 0. -/
structure Cap where
  probed : Bool
  sha3 : Bool
  avx2 : Bool
  deriving DecidableEq, Repr

/-- The registers of one host thread's command stream (R27 to R30, R32, R33; R311: each thread has its own CMD, BASE,
STATUS, SEL and RESULT). `baseWritten` is the spec's "unwritten until the host first writes it" (R29). -/
structure StreamRegs where
  cmd : Word
  base : Nat
  baseWritten : Bool
  status : Status
  sel : Sel
  result : Word
  deriving DecidableEq, Repr

/-- SEL after reset: 0x00000000 (R340). -/
def Sel.reset : Sel := ⟨false, .w8, 0, .portable⟩

/-- A command stream after reset (R340). BASE is unspecified and unwritten; the value 0 is a DESIGN CHOICE
(assumption 2) that no command reads. -/
def StreamRegs.reset : StreamRegs := ⟨0, 0, false, ⟨false, 0⟩, Sel.reset, 0⟩

/-- CAP after reset: the uninitialized state (R31, R340). -/
def Cap.reset : Cap := ⟨false, false, false⟩

/-! ### Memory (20_memory.md R60) -/

/-- Memory: the bytes that differ from 0, by address. -/
abbrev Memory := List Host.Cell

/-- What an unlisted address reads as. DESIGN CHOICE (assumption 3): memory's content is the host's (R340). -/
def Memory.unlisted : Byte := 0

/-- The canonical form of memory. -/
def Memory.wf (m : Memory) : Bool := Sparse.wf Memory.unlisted m

/-! ### The hosts -/

/-- What a host thread can do to the block and to memory (R27, R72, R101 `setbase`, R340). -/
inductive HostAction where
  /-- Write register `n` (R27). A write of CMD executes the word (R28, R90). -/
  | writeReg (n : Nat) (v : Nat)
  /-- Read register `n` (R27). -/
  | readReg (n : Nat)
  /-- The host's own store of a byte (R72). -/
  | storeByte (a : Nat) (b : Byte)
  /-- The host's own load of a byte (R72). -/
  | loadByte (a : Nat)
  /-- The host threads have been ordered among themselves: later commands do not run concurrently with earlier ones
  (R73, assumption 9). -/
  | join
  /-- Reset of the whole block (R340). -/
  | reset
  deriving DecidableEq, Repr

/-- One action of one host thread. The block has no thread identifier (R311); the number only tells the command streams
apart. -/
structure HostEvent where
  thread : Nat
  action : HostAction
  deriving DecidableEq, Repr

/-- The buffer of a completed command: the bytes `base` to `base + size - 1`, read and written by `thread` (R67). -/
structure Footprint where
  thread : Nat
  base : Nat
  size : Nat
  deriving DecidableEq, Repr

/-! ### The state -/

/-- The state. `host` are the open parameters of R9; `cap` the shared CAP register; `streams` the register set of each
host thread that is not at its reset value; `mem` memory. `cur` (the thread whose action runs), `pending` (the host
actions to come, in the order they happen), `window` (the buffers of the commands since the threads were last ordered),
`readData` (what the last host read returned) and `freeCount` (how many free values were drawn) are the model's own
fields. `work` is the internal working state, unspecified between commands. -/
structure State where
  host : HostParams
  cap : Cap
  streams : List (Nat × StreamRegs)
  mem : Memory
  work : EngineWork
  cur : Nat
  pending : List HostEvent
  window : List Footprint
  readData : Nat
  freeCount : Nat
  deriving DecidableEq, Repr

/-- Why the machine stops (each one safe: no claim about what follows can be proved from it). -/
inductive Fault where
  /-- A memory command whose buffer runs past the top of the address space: the engine is stuck, with no next step
  (R66, R303 row 9). Raised by every memory command. Safe. -/
  | stuckPastTop
  /-- A memory command whose buffer is not admitted memory: the engine is stuck, with no next step (R13, R66, R303
  row 9). Raised by every memory command. Safe. -/
  | stuckNotAdmitted
  /-- A host write of CMD after an abort of any thread: the aborted block takes no command (R302, U19). Raised by the
  CMD write. Safe. -/
  | commandAfterAbort
  /-- The aborted block with no host action to come: the terminal aborted condition, never a final state (R302). Raised
  by the step. Safe. -/
  | abortedBlock
  /-- A host load or store at an address outside the address space (R60). Raised by the host's own access. Safe. -/
  | noSuchAddress
  deriving DecidableEq, Repr

/-- What the model gives no meaning to (each one safe). -/
inductive Refusal where
  /-- A command that has no meaning yet. Raised by exec's arms. Safe. -/
  | notModelled (mnemonic : String)
  /-- A command that reads a BASE that was never written: the spec refuses it (R29, R303 row 8, R351, U10). Raised by
  every memory command. Safe. -/
  | baseUnwritten
  /-- A host read or write of a register number above 5 (R27). Raised by the host's register accesses. Safe. -/
  | noSuchRegister
  /-- A command whose buffer overlaps that of a command of another thread that it is not ordered after (R73, U14). Raised
  by every memory command. Safe. -/
  | overlappingBuffers
  deriving DecidableEq, Repr

/-- The outcome of a step of this machine. -/
abbrev Out := Host.Outcome State Fault Refusal

/-- The machine at power-on of a given host: every register at its reset value (R340), memory as the host left it. -/
def State.resetOn (h : HostParams) (m : Memory) : State :=
  ⟨h, Cap.reset, [], m, Config.resetWork, 0, [], [], 0, 0⟩

/-- The machine right after reset (R340, R341): idle, no host action pending, memory with nothing listed. The host is a
DESIGN CHOICE (assumption 1). -/
def State.reset : State := State.resetOn Config.resetHost []

end Sys2Proof.Machine
end

