-- ==== Sys2Proof/Machine/Operands.lean ====
section
/-! DEFINITION. Machine/Operands.lean: the parameters of a lane type, the required state counts, and the buffer layouts a
command loads and stores (00_scope.md R6, R7, R13; 20_memory.md R60 to R65; 30_encoding.md R93, R96). -/

namespace Sys2Proof

/-! ### Lane-type parameters (R6, R7, R92) -/

/-- `w(L)`: the element width. -/
def LaneType.width : LaneType → Nat
  | .w8 => 8
  | .w16 => 16
  | .w32 => 32
  | .w64 => 64
  | .v2 => 64
  | .v4 => 64
  | .v8 => 64

/-- `N(L)`: the number of logical states per lane. -/
def LaneType.elems : LaneType → Nat
  | .w8 => 1
  | .w16 => 1
  | .w32 => 1
  | .w64 => 1
  | .v2 => 2
  | .v4 => 4
  | .v8 => 8

/-- `maxR(L)`: the native, maximum round count. -/
def LaneType.maxR : LaneType → Nat
  | .w8 => 18
  | .w16 => 20
  | .w32 => 22
  | .w64 => 24
  | .v2 => 24
  | .v4 => 24
  | .v8 => 24

/-- `align(L)` (20_memory.md R65): w/8 for a scalar type, 8 for a vector type. -/
def LaneType.align : LaneType → Nat
  | .w8 => 1
  | .w16 => 2
  | .w32 => 4
  | .w64 => 8
  | .v2 => 8
  | .v4 => 8
  | .v8 => 8

/-- The bytes of a buffer that holds one state of lane type L: 25 lanes of N(L) elements (R62, R64). -/
def LaneType.bufferBytes (lt : LaneType) : Nat := 25 * (lt.elems * (lt.width / 8))

namespace Machine

/-! ### Bytes and little-endian values (R13, R61) -/

/-- The byte at an address. -/
def Memory.byteAt (m : Memory) (a : Nat) : Byte := Sparse.get Memory.unlisted m a

/-- Store a byte at an address. -/
def Memory.setByte (m : Memory) (a : Nat) (b : Byte) : Memory := Sparse.put Memory.unlisted m a b

/-- `MemRead(addr, n)`: the n bytes from `a` on, byte `a` in bits 7:0. -/
def memRead (m : Memory) (a : Nat) : Nat → Nat
  | 0 => 0
  | n + 1 => (m.byteAt a).toNat + 256 * memRead m (a + 1) n

/-- `MemWrite(addr, n, v)`: bits 8i+7:8i of `v` go to address `a + i`. -/
def memWrite (m : Memory) (a : Nat) : Nat → Nat → Memory
  | 0, _ => m
  | n + 1, v => (memWrite m (a + 1) n (v / 256)).setByte a (BitVec.ofNat 8 v)

/-! ### Buffers: arrays of elements from BASE on (R62 to R64)

Each layout is an array of elements of `w` bits, element number i at `base + (w/8)*i`. Lane k, element j of a packed
state of N elements a lane is number `N*k + j` (R64; a scalar state is the case N = 1, R62); lane k of state j of a
state-major buffer is number `25*j + k` (R63). -/

/-- Element number `i` of the buffer at `base`. -/
def loadElem (m : Memory) (base w i : Nat) : BitVec w := BitVec.ofNat w (memRead m (base + w / 8 * i) (w / 8))

/-- Store `count` elements, number `i` holding `elem i`, into the buffer at `base`. The addresses are distinct, so the
order of the stores is immaterial. -/
def storeElems {w : Nat} (m : Memory) (base : Nat) : Nat → (Nat → BitVec w) → Memory
  | 0, _ => m
  | i + 1, elem => storeElems (memWrite m (base + w / 8 * i) (w / 8) (elem i).toNat) base i elem

/-- Element `j` of lane `k` (0 past the state's bounds). -/
def elemAt {w n : Nat} (S : KState w n) (k j : Nat) : BitVec w :=
  if hk : k < 25 then if hj : j < n then S[k][j] else 0 else 0

/-- `LoadState_L` and `LoadVec_N` (R62, R64): the state in the scalar or packed buffer at `base`. -/
def loadState (m : Memory) (base w n : Nat) : KState w n :=
  Vector.ofFn fun k => Vector.ofFn fun j => loadElem m base w (n * k.val + j.val)

/-- `StoreState_L` and `StoreVec_N` (R62, R64). -/
def storeState {w n : Nat} (m : Memory) (base : Nat) (S : KState w n) : Memory :=
  storeElems m base (25 * n) fun i => elemAt S (i / n) (i % n)

/-- `LoadStates` (R63): the `n` states of the state-major buffer at `base`. -/
def loadStates (m : Memory) (base n : Nat) : KStates n :=
  Vector.ofFn fun j => Vector.ofFn fun k => Vector.replicate 1 (loadElem m base 64 (25 * j.val + k.val))

/-- `StoreStates` (R63). -/
def storeStates {n : Nat} (m : Memory) (base : Nat) (T : KStates n) : Memory :=
  storeElems m base (25 * n) fun i => if hj : i / 25 < n then elemAt T[i / 25] (i % 25) 0 else 0

/-- The bytes of a state-major buffer of `n` states (R63). -/
def statesBytes (n : Nat) : Nat := 200 * n

/-- The alignment of ARM_P1, ARM_P2, AVX2_P4, PACK and UNPACK (R65). -/
def statesAlign : Nat := 8

/-! ### Required state counts (R93, R96) -/

/-- NS = N(L), the required count of a command that uses LW. -/
def nsIsElems (ns : BitVec 4) (lt : LaneType) : Bool := decide (ns.toNat = lt.elems)

/-- NS is 2, 4 or 8, the required count of PACK and UNPACK. -/
def nsIsVector (ns : BitVec 4) : Bool := decide (ns.toNat = 2 ∨ ns.toNat = 4 ∨ ns.toNat = 8)

end Machine

end Sys2Proof
end

