-- ==== Sys2Proof/Machine/Flags.lean ====
section
/-! DEFINITION. Machine/Flags.lean: the abort flag and code, and the words the host reads from STATUS, CAP and SEL
(10_state.md R30 to R32, R36; 60_exceptions.md R300). The block has no other flags. -/

namespace Sys2Proof.Machine

/-- The number of an abort code, as STATUS.ECODE holds it (R300). -/
def AbortCode.bits : AbortCode → BitVec 4
  | .roundsExceed => 1
  | .roundsZero => 2
  | .stateCount => 3
  | .noCapability => 4
  | .reserved => 5
  | .misaligned => 6
  | .noSelection => 7

/-- STATUS after `raise Abort(code)` (00_scope.md R14). -/
def Status.ofAbort (code : AbortCode) : Status := ⟨true, code.bits⟩

/-- One bit of a register word. -/
def bit (b : Bool) : BitVec 1 := BitVec.ofBool b

/-- STATUS as the host reads it (R30). -/
def Status.word (s : Status) : Word := 0#24 ++ s.ecode ++ 0#3 ++ bit s.aborted

/-- CAP as the host reads it (R31). -/
def Cap.word (c : Cap) : Word := 0#29 ++ bit c.avx2 ++ bit c.sha3 ++ bit c.probed

/-- The number of a backend, as SEL.BACKEND holds it (R32). -/
def Backend.bits : Backend → BitVec 2
  | .portable => 0
  | .armP1 => 1
  | .armP2 => 2
  | .avx2P4 => 3

/-- SEL as the host reads it (R32). -/
def Sel.word (s : Sel) : Word :=
  0#14 ++ s.backend.bits ++ 0#3 ++ s.nr ++ s.lane.code ++ 0#3 ++ bit s.valid

end Sys2Proof.Machine
end

