-- ==== Sys2Proof/Machine/Ops.lean ====
section
/-! DEFINITION. Machine/Ops.lean: the shared operations: the registers of the running thread, taking an abort, the
precondition checks, and running a command on its buffer (00_scope.md R14; 20_memory.md R65 to R69; 60_exceptions.md R300
to R306). -/

namespace Sys2Proof

/-- The host has the ARM SHA3 extension: HOST_ARCH = aarch64 and HOST_SHA3 (R31, R224, C6). -/
def HostParams.hasArmSha3 (h : HostParams) : Bool := decide (h.arch = .aarch64) && h.sha3

/-- The host has AVX2: HOST_ARCH = x86_64 and HOST_AVX2 (R31, R243). -/
def HostParams.hasAvx2 (h : HostParams) : Bool := decide (h.arch = .x86_64) && h.avx2

/-- `MEM_ADMIT(addr, n)`: each of the n bytes at `a` is memory the host handed to the block (R9). -/
def HostParams.memAdmit (h : HostParams) (a n : Nat) : Bool :=
  (List.range n).all fun i => h.admitted.any fun r => decide (r.base ≤ a + i ∧ a + i < r.base + r.size)

namespace Machine

/-! ### The registers of the command streams -/

/-- The registers of host thread `t`. -/
def State.regsOf (s : State) (t : Nat) : StreamRegs := Sparse.get StreamRegs.reset s.streams t

/-- The registers of the thread whose action runs. -/
def State.regs (s : State) : StreamRegs := s.regsOf s.cur

/-- Replace the registers of the thread whose action runs. -/
def State.setRegs (s : State) (r : StreamRegs) : State :=
  { s with streams := Sparse.put StreamRegs.reset s.streams s.cur r }

/-- `CMD <- v` (R28). -/
def State.setCmd (s : State) (v : Word) : State := s.setRegs { s.regs with cmd := v }

/-- `BASE <- a` by the host (R29): ADDR_WIDTH bits, and written from now on. -/
def State.setBase (s : State) (a : Nat) : State :=
  s.setRegs { s.regs with base := a % 2 ^ s.host.addrWidth, baseWritten := true }

/-- `SEL <- sel` (R262). -/
def State.setSel (s : State) (sel : Sel) : State := s.setRegs { s.regs with sel := sel }

/-- `RESULT <- v` (R264). -/
def State.setResult (s : State) (v : Word) : State := s.setRegs { s.regs with result := v }

/-- Some thread's command has aborted: then the whole block is in the aborted condition (R302, D27). -/
def State.anyAborted (s : State) : Bool := s.streams.any fun e => e.2.status.aborted

/-! ### Taking an abort, and the only way back -/

/-- `raise Abort(code)` (R14, R301, R305): STATUS.ABORTED and STATUS.ECODE of the running thread are written; CMD still
holds the aborting word, BASE and every other register keep their values, and memory does not change. -/
def State.takeAbort (s : State) (code : AbortCode) : State :=
  s.setRegs { s.regs with status := Status.ofAbort code }

/-- The outcome of a command that aborts. -/
def abort (code : AbortCode) (s : State) : Out := .next (s.takeAbort code)

/-- `assert c else code`: when the check fails the command aborts with `code`, else it goes on with `k` (R14). -/
def require (c : Bool) (code : AbortCode) (s : State) (k : Out) : Out := if c then k else abort code s

/-- The working state is unspecified from here on: a fresh free value (R34, R35). -/
def State.scrambleWork (s : State) : State :=
  { s with work := Config.freeWork s.freeCount, freeCount := s.freeCount + 1 }

/-- Reset (R340): every register of every command stream and CAP go to their reset values, the aborted condition ends,
memory is unchanged and the working state is unspecified. There is no other return from an abort (R306). -/
def State.resetBlock (s : State) : State :=
  { s with cap := Cap.reset, streams := [], window := [] }.scrambleWork

/-! ### Memory commands -/

/-- The buffer of `size` bytes at `base` overlaps one that another thread's command used since the threads were last
ordered (R73). -/
def State.overlaps (s : State) (base size : Nat) : Bool :=
  s.window.any fun f => decide (f.thread ≠ s.cur ∧ f.base < base + size ∧ base < f.base + f.size)

/-- Record the buffer a command of the running thread used (R67, R73). -/
def State.noteBuffer (s : State) (base size : Nat) : State :=
  { s with window := if s.window.contains ⟨s.cur, base, size⟩ then s.window else ⟨s.cur, base, size⟩ :: s.window }

/-- The end of a memory command: memory becomes `m`, the buffer is recorded, the working state is unspecified. -/
def State.commit (s : State) (base size : Nat) (m : Memory) : State :=
  ({ s with mem := m }.noteBuffer base size).scrambleWork

/-- Run a memory command (R69): the checks that read BASE, in the order of R303 rows 7 to 9, then the load, computation
and store of the whole buffer, which `compute` gives as memory after the command. A BASE that was never written is
refused: the spec says so (R29, R303 row 8, R351, U10, V-E-1); row 7 then has no value of the spec's to test (assumption
5). -/
def onBuffer (align size : Nat) (s : State) (compute : Nat → Memory) : Out :=
  let base := s.regs.base
  if s.regs.baseWritten = false then .refused .baseUnwritten
  else require (decide (base % align = 0)) .misaligned s
    (if 2 ^ s.host.addrWidth < base + size then .fault .stuckPastTop
    else if s.host.memAdmit base size = false then .fault .stuckNotAdmitted
    else if s.overlaps base size = true then .refused .overlappingBuffers
    else .next (s.commit base size (compute base)))

/-- The single-buffer frame `frame(L, f)` (40_round_stages.md R129): load the state of lane type L at BASE, apply `f`,
store it back. It writes no register and no flag. -/
def frame (lt : LaneType) (f : KState lt.width lt.elems → KState lt.width lt.elems) (s : State) : Out :=
  onBuffer lt.align lt.bufferBytes s fun base =>
    storeState s.mem base (f (loadState s.mem base lt.width lt.elems))

end Machine

end Sys2Proof
end

