-- ==== Sys2Proof/Machine/Stages.lean ====
section
/-! DEFINITION. Machine/Stages.lean: the look-up tables, the lane operations, the stages theta, rho-pi, chi and iota, the
round, and the commands THETA, RHOPI, CHI, IOTA and ROUND (00_scope.md R11, R12; 10_state.md R22 to R26;
40_round_stages.md). -/

namespace Sys2Proof.Machine

/-! ### Look-up tables (R22 to R26): read-only constants -/

/-- The round constants RC[0..23] (R22). -/
def rcTable : List (BitVec 64) :=
  [0x0000000000000001, 0x0000000000008082, 0x800000000000808A, 0x8000000080008000,
   0x000000000000808B, 0x0000000080000001, 0x8000000080008081, 0x8000000000008009,
   0x000000000000008A, 0x0000000000000088, 0x0000000080008009, 0x000000008000000A] ++
  [0x000000008000808B, 0x800000000000008B, 0x8000000000008089, 0x8000000000008003,
   0x8000000000008002, 0x8000000000000080, 0x000000000000800A, 0x800000008000000A,
   0x8000000080008081, 0x8000000000008080, 0x0000000080000001, 0x8000000080008008]

/-- `RC[i]`. Every use has i ≤ 23 (R94, R172). -/
def rc (i : Nat) : BitVec 64 := rcTable.getD i 0

/-- The rotation amounts RHO[0..23], unreduced, in walk order (R23). -/
def rhoTable : List Nat :=
  [1, 3, 6, 10, 15, 21, 28, 36, 45, 55, 2, 14, 27, 41, 56, 8, 25, 43, 62, 18, 39, 61, 20, 44]

/-- The lane indices PI[0..23] of the walk (R24). -/
def piTable : List (Fin 25) :=
  [10, 7, 11, 17, 18, 3, 5, 16, 8, 21, 24, 4, 15, 23, 19, 13, 12, 2, 20, 14, 22, 9, 6, 1]

/-- The rho offset of each lane index (R25). -/
def rhoPosTable : List Nat :=
  [0, 1, 62, 28, 27, 36, 44, 6, 55, 20, 3, 10, 43, 25, 39, 41, 45, 15, 21, 8, 18, 2, 61, 56, 14]

/-! ### Lane operations (R12, R190): on each element separately -/

/-- `rotl_w(a, n)`: left rotation by `n mod w`. -/
def rotl {w : Nat} (a : BitVec w) (n : Nat) : BitVec w :=
  if n % w = 0 then a else (a <<< (n % w)) ||| (a >>> (w - n % w))

/-- `trunc_w(c)`: the low w bits. -/
def trunc (w : Nat) (c : BitVec 64) : BitVec w := c.setWidth w

/-- `a ^ b`. -/
def laneXor {w n : Nat} (a b : Lane w n) : Lane w n := Vector.ofFn fun j => a[j] ^^^ b[j]

/-- `a & b`. -/
def laneAnd {w n : Nat} (a b : Lane w n) : Lane w n := Vector.ofFn fun j => a[j] &&& b[j]

/-- `~a`. -/
def laneNot {w n : Nat} (a : Lane w n) : Lane w n := Vector.ofFn fun j => ~~~a[j]

/-- `rotl(a, k)` on each element. -/
def laneRotl {w n : Nat} (a : Lane w n) (k : Nat) : Lane w n := Vector.ofFn fun j => rotl a[j] k

/-- `bcast_L(c)`: every element equal to c (R136). -/
def bcast {w : Nat} (n : Nat) (c : BitVec w) : Lane w n := Vector.replicate n c

/-! ### Lanes by column and row (R11) -/

/-- The index `5*y + x` of lane (x, y). -/
def laneIndex (x y : Fin 5) : Fin 25 := ⟨5 * y.val + x.val, by omega⟩

/-- Lane (x, y): x is the column, y the row. -/
def laneAt {w n : Nat} (S : KState w n) (x y : Fin 5) : Lane w n := S[laneIndex x y]

/-- The state whose lane (x, y) is `f x y`. -/
def ofLanes {w n : Nat} (f : Fin 5 → Fin 5 → Lane w n) : KState w n :=
  Vector.ofFn fun i => f ⟨i.val % 5, by omega⟩ ⟨i.val / 5, by omega⟩

/-! ### The stages -/

/-- The column parities C[0..4], all computed from the state before theta changes a lane (R130, R344). -/
def columnParities {w n : Nat} (S : KState w n) : Vector (Lane w n) 5 :=
  Vector.ofFn fun x =>
    laneXor (laneXor (laneXor (laneXor (laneAt S x 0) (laneAt S x 1)) (laneAt S x 2)) (laneAt S x 3)) (laneAt S x 4)

/-- `D` of column x: `C[(x+4) mod 5] ^ rotl(C[(x+1) mod 5], 1)`; addition in Fin 5 is modulo 5 (R11, R130). -/
def thetaEffect {w n : Nat} (C : Vector (Lane w n) 5) : Vector (Lane w n) 5 :=
  Vector.ofFn fun x => laneXor C[x + 4] (laneRotl C[x + 1] 1)

/-- theta (R130). -/
def theta {w n : Nat} (S : KState w n) : KState w n :=
  let D := thetaEffect (columnParities S)
  ofLanes fun x y => laneXor (laneAt S x y) D[x]

/-- The moves of the fused rho-pi pass, in the order of the table: each writes S[PI[t]] after its old value is saved in
LAST (R132, R345). -/
def rhopiWalk {w n : Nat} : List (Nat × Fin 25) → Lane w n → KState w n → KState w n
  | [], _, S => S
  | (r, p) :: moves, last, S => rhopiWalk moves S[p] (S.set p (laneRotl last r))

/-- rho and pi, fused; the first LAST is S[1], and lane 0 is neither moved nor rotated (R132). -/
def rhopi {w n : Nat} (S : KState w n) : KState w n := rhopiWalk (rhoTable.zip piTable) S[1] S

/-- chi, from the row's pre-chi values (R134, R346). -/
def chi {w n : Nat} (S : KState w n) : KState w n :=
  ofLanes fun x y => laneXor (laneAt S x y) (laneAnd (laneNot (laneAt S (x + 1) y)) (laneAt S (x + 2) y))

/-- iota with the constant at absolute index i: lane (0, 0) only (R136). -/
def iota {w n : Nat} (i : Nat) (S : KState w n) : KState w n :=
  S.set 0 (laneXor S[0] (bcast n (trunc w (rc i))))

/-- One round: theta, rho-pi, chi, iota, in this order (R138, R347). -/
def keccakRound {w n : Nat} (i : Nat) (S : KState w n) : KState w n := iota i (chi (rhopi (theta S)))

/-! ### The stage commands -/

/-- THETA (R131). -/
def execTheta (lt : LaneType) (ns : BitVec 4) (s : State) : Out :=
  require (nsIsElems ns lt) .stateCount s (frame lt theta s)

/-- RHOPI (R133). -/
def execRhopi (lt : LaneType) (ns : BitVec 4) (s : State) : Out :=
  require (nsIsElems ns lt) .stateCount s (frame lt rhopi s)

/-- CHI (R135). -/
def execChi (lt : LaneType) (ns : BitVec 4) (s : State) : Out :=
  require (nsIsElems ns lt) .stateCount s (frame lt chi s)

/-- IOTA (R137): RCI is an absolute index 0 to 23 for every lane type; 24 to 31 is a reserved encoding (R94, R303
row 1). -/
def execIota (lt : LaneType) (ns : BitVec 4) (rci : BitVec 5) (s : State) : Out :=
  require (decide (rci.toNat < 24)) .reserved s
    (require (nsIsElems ns lt) .stateCount s (frame lt (iota rci.toNat) s))

/-- ROUND (R139): one full round with the constant at absolute index RCI. -/
def execRound (lt : LaneType) (ns : BitVec 4) (rci : BitVec 5) (s : State) : Out :=
  require (decide (rci.toNat < 24)) .reserved s
    (require (nsIsElems ns lt) .stateCount s (frame lt (keccakRound rci.toNat) s))

end Sys2Proof.Machine
end

