-- ==== Sys2Proof/Machine/Permutation.lean ====
section
/-! DEFINITION. Machine/Permutation.lean: the permutation over a window of round constants, and the command PERMUTE
(00_scope.md R15; 41_lane_permute.md R170 to R177). -/

namespace Sys2Proof.Machine

/-- The indices of `for i in a..b`: a, a+1, …, b−1, none when b ≤ a (R15). -/
def forRange (a b : Nat) : List Nat := List.range' a (b - a)

/-- The rounds with the constants at the given indices, in order, oldest first (R170, R347). -/
def rounds {w n : Nat} (is : List Nat) (S : KState w n) : KState w n := is.foldl (fun S i => keccakRound i S) S

/-- The round window of a call with `nr` rounds on a lane type of at most `maxR`: the constants maxR−nr to maxR−1 (R172,
C1). -/
def roundWindow (maxR nr : Nat) : List Nat := forRange (maxR - nr) maxR

/-- `permute_L(S, nr)`, for nr ≤ maxR(L) (R170); the one function of R177. -/
def permute {w n : Nat} (maxR nr : Nat) (S : KState w n) : KState w n := rounds (roundWindow maxR nr) S

/-- `permute_W64(S, nr)`, the function every kernel must equal (R220, R240). -/
def permuteW64 (nr : Nat) (S : KState 64 1) : KState 64 1 := permute 24 nr S

/-- PERMUTE (R171): NR = 0 is legal and rewrites the buffer unchanged (R175); NR above maxR(L) aborts, never clamped
(R174). -/
def execPermute (lt : LaneType) (ns : BitVec 4) (nr : BitVec 5) (s : State) : Out :=
  require (nsIsElems ns lt) .stateCount s
    (require (decide (nr.toNat ≤ lt.maxR)) .roundsExceed s (frame lt (permute lt.maxR nr.toNat) s))

end Sys2Proof.Machine
end

