-- ==== Sys2Proof/Machine/Packing.lean ====
section
/-! DEFINITION. Machine/Packing.lean: moving states between the state-major and the packed layout, and the commands PACK
and UNPACK (42_vector_lanes.md R192 to R194). -/

namespace Sys2Proof.Machine

/-- `V[k].e[j] <- T[j][k]` (R192). -/
def packStates {n : Nat} (T : KStates n) : KState 64 n :=
  Vector.ofFn fun k => Vector.ofFn fun j => T[j][k][0]

/-- `T[j][k] <- V[k].e[j]` (R193). -/
def unpackStates {n : Nat} (V : KState 64 n) : KStates n :=
  Vector.ofFn fun j => Vector.ofFn fun k => Vector.replicate 1 V[k][j]

/-- PACK (R192): transposes NS state-major states into one packed state, in place. -/
def execPack (ns : BitVec 4) (s : State) : Out :=
  require (nsIsVector ns) .stateCount s
    (onBuffer statesAlign (statesBytes ns.toNat) s fun base =>
      storeState s.mem base (packStates (loadStates s.mem base ns.toNat)))

/-- UNPACK (R193): transposes one packed state back into NS state-major states, in place. -/
def execUnpack (ns : BitVec 4) (s : State) : Out :=
  require (nsIsVector ns) .stateCount s
    (onBuffer statesAlign (statesBytes ns.toNat) s fun base =>
      storeStates s.mem base (unpackStates (loadState s.mem base 64 ns.toNat)))

end Sys2Proof.Machine
end

