-- ==== Sys2Proof/Machine/Wrappers.lean ====
section
/-! DEFINITION. Machine/Wrappers.lean: the kernels of the ARM SHA3 and AVX2 wrappers, defined by their results, and the
commands ARM_P1, ARM_P2 and AVX2_P4 (43_arm_sha3.md R220 to R224; 44_avx2.md R240 to R243). -/

namespace Sys2Proof.Machine

/-- `arm2(T0, T1, nr)` (R220). -/
def arm2 (T0 T1 : KState 64 1) (nr : Nat) : KState 64 1 × KState 64 1 := (permuteW64 nr T0, permuteW64 nr T1)

/-- `avx4(T0, T1, T2, T3, nr)` (R240). -/
def avx4 (T0 T1 T2 T3 : KState 64 1) (nr : Nat) : KState 64 1 × KState 64 1 × KState 64 1 × KState 64 1 :=
  (permuteW64 nr T0, permuteW64 nr T1, permuteW64 nr T2, permuteW64 nr T3)

/-- The checks of a wrapper command, in the order of R303 rows 3 to 6: NS, NR ≠ 0, NR ≤ 24, the host's extension. The
extension is read from the host parameters, not from CAP (R224). -/
def wrapperChecks (count : Nat) (ns : BitVec 4) (nr : BitVec 5) (capable : Bool) (s : State) (k : Out) : Out :=
  require (decide (ns.toNat = count)) .stateCount s
    (require (decide (nr.toNat ≠ 0)) .roundsZero s
      (require (decide (nr.toNat ≤ 24)) .roundsExceed s
        (require capable .noCapability s k)))

/-- ARM_P1 (R221): one state, paired with a dummy second state whose result is dropped (R223). -/
def execArmP1 (ns : BitVec 4) (nr : BitVec 5) (s : State) : Out :=
  wrapperChecks 1 ns nr s.host.hasArmSha3 s
    (onBuffer statesAlign (statesBytes 1) s fun base =>
      let T := loadStates s.mem base 1
      let R := arm2 T[0] Config.dummyState nr.toNat
      storeStates s.mem base #v[R.1])

/-- ARM_P2 (R222): two state-major states. -/
def execArmP2 (ns : BitVec 4) (nr : BitVec 5) (s : State) : Out :=
  wrapperChecks 2 ns nr s.host.hasArmSha3 s
    (onBuffer statesAlign (statesBytes 2) s fun base =>
      let T := loadStates s.mem base 2
      let R := arm2 T[0] T[1] nr.toNat
      storeStates s.mem base #v[R.1, R.2])

/-- AVX2_P4 (R241): four state-major states. -/
def execAvx2P4 (ns : BitVec 4) (nr : BitVec 5) (s : State) : Out :=
  wrapperChecks 4 ns nr s.host.hasAvx2 s
    (onBuffer statesAlign (statesBytes 4) s fun base =>
      let T := loadStates s.mem base 4
      let R := avx4 T[0] T[1] T[2] T[3] nr.toNat
      storeStates s.mem base #v[R.1, R.2.1, R.2.2.1, R.2.2.2])

end Sys2Proof.Machine
end

