-- ==== Sys2Proof/Machine/Selection.lean ====
section
/-! DEFINITION. Machine/Selection.lean: the capability probe, the dispatch selection, the degree of parallelism, and the
commands PROBE, DISPATCH, PDEGREE and PERMUTE_SEL (45_dispatch.md R260 to R266). -/

namespace Sys2Proof.Machine

/-- The token a probe of this host writes (R260). -/
def Cap.ofProbe (h : HostParams) : Cap := ⟨true, h.hasArmSha3, h.hasAvx2⟩

/-- PROBE's effect (R260): initialize the token once, all three fields in one step; no effect once it is probed. -/
def State.probe (s : State) : State := { s with cap := if s.cap.probed then s.cap else Cap.ofProbe s.host }

/-- `select(L, CAP)` (R261). -/
def select (lt : LaneType) (c : Cap) : Backend :=
  match lt with
  | .w64 => if c.sha3 then .armP1 else .portable
  | .v2 => if c.sha3 then .armP2 else .portable
  | .v4 => if c.avx2 then .avx2P4 else .portable
  | .w8 => .portable
  | .w16 => .portable
  | .w32 => .portable
  | .v8 => .portable

/-- `deg(SEL)` (R263): the states one call of the selected backend advances. -/
def degree (sel : Sel) : Nat :=
  match sel.backend with
  | .portable => sel.lane.elems
  | .armP1 => 2
  | .armP2 => 2
  | .avx2P4 => 4

/-- PROBE (R260). -/
def execProbe (s : State) : Out := .next s.probe

/-- DISPATCH (R262): 1 ≤ NR ≤ min(24, maxR(L)) (C3), then an implicit probe, then the selection is recorded in SEL. -/
def execDispatch (lt : LaneType) (nr : BitVec 5) (s : State) : Out :=
  require (decide (nr.toNat ≠ 0)) .roundsZero s
    (require (decide (nr.toNat ≤ 24 ∧ nr.toNat ≤ lt.maxR)) .roundsExceed s
      (.next (s.probe.setSel ⟨true, lt, nr, select lt s.probe.cap⟩)))

/-- PDEGREE (R264). -/
def execPdegree (s : State) : Out :=
  require s.regs.sel.valid .noSelection s
    (.next (s.setResult (BitVec.ofNat 32 (degree s.regs.sel))))

/-- PERMUTE_SEL (R265): the selected permutation in the layout of SEL.LW. The result is the portable one whatever
SEL.BACKEND holds; the round count is not checked again, and neither CAP nor the host parameters are read (R266). -/
def execPermuteSel (ns : BitVec 4) (s : State) : Out :=
  require s.regs.sel.valid .noSelection s
    (require (nsIsElems ns s.regs.sel.lane) .stateCount s
      (frame s.regs.sel.lane (permute s.regs.sel.lane.maxR s.regs.sel.nr.toNat) s))

end Sys2Proof.Machine
end

