-- ==== Sys2Proof/Machine/Dispatch.lean ====
section
/-! DEFINITION. Machine/Dispatch.lean: one arm per command, each one direct call of its meaning (30_encoding.md R96). -/

namespace Sys2Proof.Machine

def exec (i : Instr) (s : State) : Host.Outcome State Fault Refusal :=
  match i with
  | .theta lt ns => Sys2Proof.Machine.execTheta lt ns s
  | .rhopi lt ns => Sys2Proof.Machine.execRhopi lt ns s
  | .chi lt ns => Sys2Proof.Machine.execChi lt ns s
  | .iota lt ns rci => Sys2Proof.Machine.execIota lt ns rci s
  | .round lt ns rci => Sys2Proof.Machine.execRound lt ns rci s
  | .permute lt ns nr => Sys2Proof.Machine.execPermute lt ns nr s
  | .pack ns => Sys2Proof.Machine.execPack ns s
  | .unpack ns => Sys2Proof.Machine.execUnpack ns s
  | .armP1 ns nr => Sys2Proof.Machine.execArmP1 ns nr s
  | .armP2 ns nr => Sys2Proof.Machine.execArmP2 ns nr s
  | .avx2P4 ns nr => Sys2Proof.Machine.execAvx2P4 ns nr s
  | .probe => Sys2Proof.Machine.execProbe s
  | .dispatch lt nr => Sys2Proof.Machine.execDispatch lt nr s
  | .pdegree => Sys2Proof.Machine.execPdegree s
  | .permuteSel ns => Sys2Proof.Machine.execPermuteSel ns s

end Sys2Proof.Machine
end

