-- ==== Sys2Proof/Machine/HostPort.lean ====
section
/-! DEFINITION. Machine/HostPort.lean: what each host action does (10_state.md R27 to R33; 20_memory.md R60, R72, R73;
30_encoding.md R90; 60_exceptions.md R302; 70_reset_and_hazards.md R340). -/

namespace Sys2Proof.Machine

/-- Run one command word (R90): decode it; a reserved encoding aborts with E_RESERVED (R98); else the opcode's rule. -/
def runWord (v : Word) (s : State) : Out :=
  match decode v with
  | .ok i => exec i s
  | .error _ => abort .reserved s

/-- A host write of CMD (R28, R90): the aborted block takes no command (R302); else the word is stored and then executed
as one command. -/
def writeCmd (v : Word) (s : State) : Out :=
  if s.anyAborted then .fault .commandAfterAbort else runWord v (s.setCmd v)

/-- A host write of a register (R27): CMD executes, BASE is stored, the read-only registers 2 to 5 ignore it, and a
number above 5 is refused. -/
def writeReg (n v : Nat) (s : State) : Out :=
  match n with
  | 0 => writeCmd (BitVec.ofNat 32 v) s
  | 1 => .next (s.setBase v)
  | 2 => .next s
  | 3 => .next s
  | 4 => .next s
  | 5 => .next s
  | _ + 6 => .refused .noSuchRegister

/-- The value a host read of a register returns (R27 to R33): what the register holds. R29's refusal is of a command that
reads an unwritten BASE (U10), not of the host's read, which answers the held value (assumption 2). -/
def regValue (n : Nat) (s : State) : Except Refusal Nat :=
  match n with
  | 0 => .ok s.regs.cmd.toNat
  | 1 => .ok s.regs.base
  | 2 => .ok s.regs.status.word.toNat
  | 3 => .ok s.cap.word.toNat
  | 4 => .ok s.regs.sel.word.toNat
  | 5 => .ok s.regs.result.toNat
  | _ + 6 => .error .noSuchRegister

/-- A host read of a register (R27): it changes no register of the block. -/
def readReg (n : Nat) (s : State) : Out :=
  match regValue n s with
  | .ok v => .next { s with readData := v }
  | .error r => .refused r

/-- The host's own store of a byte (R60, R72). -/
def storeByte (a : Nat) (b : Byte) (s : State) : Out :=
  if a < 2 ^ s.host.addrWidth then .next { s with mem := s.mem.setByte a b } else .fault .noSuchAddress

/-- The host's own load of a byte (R60, R68, R72). -/
def loadByte (a : Nat) (s : State) : Out :=
  if a < 2 ^ s.host.addrWidth then .next { s with readData := (s.mem.byteAt a).toNat } else .fault .noSuchAddress

/-- What one host action does. -/
def hostAction (a : HostAction) (s : State) : Out :=
  match a with
  | .writeReg n v => writeReg n v s
  | .readReg n => readReg n s
  | .storeByte a b => storeByte a b s
  | .loadByte a => loadByte a s
  | .join => .next { s with window := [] }
  | .reset => .next s.resetBlock

/-- With no host action to come the block is idle and holds its registers (R313, R341); the aborted condition is never a
final state (R302). -/
def idle (s : State) : Out := if s.anyAborted then .fault .abortedBlock else .next s

end Sys2Proof.Machine
end

