-- ==== Sys2Proof/Machine/Step.lean ====
section
/-! DEFINITION. Machine/Step.lean: one step of the machine, the next action of the hosts (20_memory.md R68, R72; 30_encoding.md
R90). -/

namespace Sys2Proof.Machine

/-- The state in which the first pending action runs: the action is taken off, and its thread is the running one. -/
def State.take (s : State) (e : HostEvent) (rest : List HostEvent) : State := { s with pending := rest, cur := e.thread }

/-- One step: the next host action, in the order the hosts perform them (R72); each command is one indivisible step
(R68). -/
def step (s : State) : Host.Outcome State Fault Refusal :=
  match s.pending with
  | [] => idle s
  | e :: rest => hostAction e.action (s.take e rest)

/-- `s` with the command word `w` of `nbits` bits as the next host action: a write of CMD by the running thread. The
block fetches nothing from memory (R76); a program is the host's writes of CMD (assumption 6). -/
def State.withFetchWord (s : State) (nbits w : Nat) : State :=
  { s with pending := ⟨s.cur, .writeReg 0 (w % 2 ^ nbits)⟩ :: s.pending }

end Sys2Proof.Machine
end

