-- ==== Sys2Proof/Machine/Assembler.lean ====
section
/-! DEFINITION. Machine/Assembler.lean: the assembler lines, the pseudo-instructions and the command each one stands for
(30_encoding.md R101, R102). No meaning depends on them. -/

namespace Sys2Proof.Machine

/-- An assembler line: one command each (R101, R102). `ns` is `none` where `ns=` is omitted. -/
inductive AsmLine where
  | theta (lt : LaneType) (ns : Option (BitVec 4))
  | rhopi (lt : LaneType) (ns : Option (BitVec 4))
  | chi (lt : LaneType) (ns : Option (BitVec 4))
  | iota (lt : LaneType) (rci : BitVec 5) (ns : Option (BitVec 4))
  | round (lt : LaneType) (rci : BitVec 5) (ns : Option (BitVec 4))
  | permute (lt : LaneType) (nr : BitVec 5) (ns : Option (BitVec 4))
  | pack (ns : BitVec 4)
  | unpack (ns : BitVec 4)
  | armP1 (nr : BitVec 5)
  | armP2 (nr : BitVec 5)
  | avx2P4 (nr : BitVec 5)
  | probe
  | dispatch (lt : LaneType) (nr : BitVec 5)
  | pdegree
  | permuteSel (ns : BitVec 4)
  | permuteFull (lt : LaneType)
  | f200
  | f400
  | f800
  | f1600
  | p1600 (nr : BitVec 5)
  deriving DecidableEq, Repr

/-- N(L) as the field NS holds it. -/
def nsDefault (lt : LaneType) : BitVec 4 := BitVec.ofNat 4 lt.elems

/-- The NS the assembler writes: N(L) where `ns=` is omitted (R101). -/
def asmNs (lt : LaneType) (ns : Option (BitVec 4)) : BitVec 4 := ns.getD (nsDefault lt)

/-- The command a line assembles to; the assembler fills NS for the wrappers, and a pseudo-instruction expands to exactly
one command (R101, R102). -/
def AsmLine.command : AsmLine → Instr
  | .theta lt ns => .theta lt (asmNs lt ns)
  | .rhopi lt ns => .rhopi lt (asmNs lt ns)
  | .chi lt ns => .chi lt (asmNs lt ns)
  | .iota lt rci ns => .iota lt (asmNs lt ns) rci
  | .round lt rci ns => .round lt (asmNs lt ns) rci
  | .permute lt nr ns => .permute lt (asmNs lt ns) nr
  | .pack ns => .pack ns
  | .unpack ns => .unpack ns
  | .armP1 nr => .armP1 1 nr
  | .armP2 nr => .armP2 2 nr
  | .avx2P4 nr => .avx2P4 4 nr
  | .probe => .probe
  | .dispatch lt nr => .dispatch lt nr
  | .pdegree => .pdegree
  | .permuteSel ns => .permuteSel ns
  | .permuteFull lt => .permute lt (nsDefault lt) (BitVec.ofNat 5 lt.maxR)
  | .f200 => .permute .w8 1 18
  | .f400 => .permute .w16 1 20
  | .f800 => .permute .w32 1 22
  | .f1600 => .permute .w64 1 24
  | .p1600 nr => .permute .w64 1 nr

/-- The host action of a line: the write of its command word to CMD. -/
def AsmLine.action (l : AsmLine) : HostAction := .writeReg 0 (encode l.command).toNat

/-- `setbase <addr>` is a host action, not a command: it writes BASE (R101). -/
def setbase (a : Nat) : HostAction := .writeReg 1 a

/-- The lane-type suffix of a mnemonic (R101). -/
def laneSuffix : LaneType → String
  | .w8 => ".w8"
  | .w16 => ".w16"
  | .w32 => ".w32"
  | .w64 => ".w64"
  | .v2 => ".v2"
  | .v4 => ".v4"
  | .v8 => ".v8"

/-- A number field in decimal. -/
def fieldText {w : Nat} (v : BitVec w) : String := toString v.toNat

/-- The operands `ns=<n>, [base]`, or `[base]` where `ns=` is omitted. -/
def bufferText (ns : Option (BitVec 4)) : String :=
  match ns with
  | some n => "ns=" ++ fieldText n ++ ", [base]"
  | none => "[base]"

/-- The text of a line (R101, R102). -/
def AsmLine.text : AsmLine → String
  | .theta lt ns => "theta" ++ laneSuffix lt ++ " " ++ bufferText ns
  | .rhopi lt ns => "rhopi" ++ laneSuffix lt ++ " " ++ bufferText ns
  | .chi lt ns => "chi" ++ laneSuffix lt ++ " " ++ bufferText ns
  | .iota lt rci ns => "iota" ++ laneSuffix lt ++ " " ++ fieldText rci ++ ", " ++ bufferText ns
  | .round lt rci ns => "round" ++ laneSuffix lt ++ " " ++ fieldText rci ++ ", " ++ bufferText ns
  | .permute lt nr ns => "permute" ++ laneSuffix lt ++ " " ++ fieldText nr ++ ", " ++ bufferText ns
  | .pack ns => "pack " ++ bufferText (some ns)
  | .unpack ns => "unpack " ++ bufferText (some ns)
  | .armP1 nr => "arm.p1 " ++ fieldText nr ++ ", [base]"
  | .armP2 nr => "arm.p2 " ++ fieldText nr ++ ", [base]"
  | .avx2P4 nr => "avx2.p4 " ++ fieldText nr ++ ", [base]"
  | .probe => "probe"
  | .dispatch lt nr => "dispatch" ++ laneSuffix lt ++ " " ++ fieldText nr
  | .pdegree => "pdegree"
  | .permuteSel ns => "permute.sel " ++ bufferText (some ns)
  | .permuteFull lt => "permute.full" ++ laneSuffix lt ++ " [base]"
  | .f200 => "f200 [base]"
  | .f400 => "f400 [base]"
  | .f800 => "f800 [base]"
  | .f1600 => "f1600 [base]"
  | .p1600 nr => "p1600 " ++ fieldText nr ++ ", [base]"

end Sys2Proof.Machine
end

