-- ==== Sys2Proof/Machine/KernelInternals.lean ====
section
/-! DEFINITION. Machine/KernelInternals.lean: the informative internal structure of the two kernels (43_arm_sha3.md R225 to
R227; 44_avx2.md R242, R244). No meaning calls it: the kernels' results are fixed by R220 and R240 alone. -/

namespace Sys2Proof.Machine

/-- The source column of the lane that pi moves to (x, y): the inverse of (x, y) → (y, 2x + 3y) (R25). -/
def piSource (x y : Fin 5) : Fin 5 × Fin 5 := (x + 3 * y, x)

/-- The rho offset of lane (x, y) (R25). -/
def rhoPos (x y : Fin 5) : Nat := rhoPosTable.getD (laneIndex x y).val 0

/-- A register of each lane. -/
abbrev LaneRegs (b : Nat) := Vector (BitVec b) 25

/-- The register of lane (x, y). -/
def regAt {b : Nat} (A : LaneRegs b) (x y : Fin 5) : BitVec b := A[laneIndex x y]

/-- The registers whose lane (x, y) is `f x y`. -/
def ofRegs {b : Nat} (f : Fin 5 → Fin 5 → BitVec b) : LaneRegs b :=
  Vector.ofFn fun i => f ⟨i.val % 5, by omega⟩ ⟨i.val / 5, by omega⟩

/-! ### The ARM kernel on 128-bit registers (R225 to R227) -/

/-- Element `e` of a 128-bit register: bits 64e+63:64e (R225). -/
def elem128 (r : BitVec 128) (e : Fin 2) : BitVec 64 := r.extractLsb' (64 * e.val) 64

/-- The register with the given elements. -/
def of128 (f : Fin 2 → BitVec 64) : BitVec 128 := f 1 ++ f 0

/-- EOR3, on all 128 bits (R226). -/
def eor3 (a b c : BitVec 128) : BitVec 128 := a ^^^ b ^^^ c

/-- RAX1: rotate and XOR, per element (R226). -/
def rax1 (a b : BitVec 128) : BitVec 128 := of128 fun e => elem128 a e ^^^ rotl (elem128 b e) 1

/-- Right rotation of a 64-bit value (R226). -/
def rotr64 (v : BitVec 64) (n : Nat) : BitVec 64 := rotl v ((64 - n) % 64)

/-- XAR: XOR and rotate right by an immediate, per element (R226). -/
def xar (a b : BitVec 128) (imm : Nat) : BitVec 128 := of128 fun e => rotr64 (elem128 a e ^^^ elem128 b e) imm

/-- BCAX: bit clear and XOR, on all 128 bits (R226). -/
def bcax (a b c : BitVec 128) : BitVec 128 := a ^^^ (b &&& ~~~c)

/-- The theta parities on the ARM kernel's registers (R227). -/
def armParity (A : LaneRegs 128) (x : Fin 5) : BitVec 128 :=
  eor3 (eor3 (regAt A x 0) (regAt A x 1) (regAt A x 2)) (regAt A x 3) (regAt A x 4)

/-- Theta, rho and pi: the XOR with D fused with rho's rotation, pi by register naming (R227). -/
def armThetaRhoPi (A : LaneRegs 128) : LaneRegs 128 :=
  let C : Vector (BitVec 128) 5 := Vector.ofFn (armParity A)
  let D : Vector (BitVec 128) 5 := Vector.ofFn fun x => rax1 C[x + 4] C[x + 1]
  ofRegs fun x y =>
    let src := piSource x y
    xar (regAt A src.1 src.2) D[src.1] ((64 - rhoPos src.1 src.2) % 64)

/-- Chi with BCAX (R227). -/
def armChi (A : LaneRegs 128) : LaneRegs 128 :=
  ofRegs fun x y => bcax (regAt A x y) (regAt A (x + 2) y) (regAt A (x + 1) y)

/-- Iota: the round constant loaded into both elements (R227). -/
def armIota (i : Nat) (A : LaneRegs 128) : LaneRegs 128 := A.set 0 (A[0] ^^^ of128 fun _ => rc i)

/-- One round of the ARM kernel. -/
def armRound (i : Nat) (A : LaneRegs 128) : LaneRegs 128 := armIota i (armChi (armThetaRhoPi A))

/-- The internal pack: state 0 in element 0, state 1 in element 1 (R225). -/
def armPack (T0 T1 : KState 64 1) : LaneRegs 128 :=
  Vector.ofFn fun k => of128 fun e => if e = 0 then T0[k][0] else T1[k][0]

/-- The state in element `e`. -/
def armUnpack (A : LaneRegs 128) (e : Fin 2) : KState 64 1 := Vector.ofFn fun k => Vector.replicate 1 (elem128 A[k] e)

/-- The ARM kernel as R225 and R227 build it: pack, nr rounds, unpack. -/
def armKernel (T0 T1 : KState 64 1) (nr : Nat) : KState 64 1 × KState 64 1 :=
  let A := (roundWindow 24 nr).foldl (fun A i => armRound i A) (armPack T0 T1)
  (armUnpack A 0, armUnpack A 1)

/-! ### The AVX2 kernel on 256-bit registers (R242, R244) -/

/-- Element `e` of a 256-bit register: bits 64e+63:64e (R244). -/
def elem256 (r : BitVec 256) (e : Fin 4) : BitVec 64 := r.extractLsb' (64 * e.val) 64

/-- The register with the given elements. -/
def of256 (f : Fin 4 → BitVec 64) : BitVec 256 := f 3 ++ f 2 ++ f 1 ++ f 0

/-- A rotation built from two shifts and an OR, per element (R190, R244). -/
def avx2Rotl (r : BitVec 256) (n : Nat) : BitVec 256 :=
  of256 fun e => (elem256 r e <<< n) ||| (elem256 r e >>> (64 - n))

/-- The theta parities on the AVX2 kernel's registers. -/
def avx2Parity (A : LaneRegs 256) (x : Fin 5) : BitVec 256 :=
  regAt A x 0 ^^^ regAt A x 1 ^^^ regAt A x 2 ^^^ regAt A x 3 ^^^ regAt A x 4

/-- Theta on the AVX2 kernel's registers. -/
def avx2Theta (A : LaneRegs 256) : LaneRegs 256 :=
  let C : Vector (BitVec 256) 5 := Vector.ofFn (avx2Parity A)
  let D : Vector (BitVec 256) 5 := Vector.ofFn fun x => C[x + 4] ^^^ avx2Rotl C[x + 1] 1
  ofRegs fun x y => regAt A x y ^^^ D[x]

/-- Rho and pi: lane 0 stays as it is, every other lane is rotated by 1 to 62 and renamed (R25, R190). -/
def avx2RhoPi (A : LaneRegs 256) : LaneRegs 256 :=
  ofRegs fun x y =>
    let src := piSource x y
    if x = 0 ∧ y = 0 then regAt A 0 0 else avx2Rotl (regAt A src.1 src.2) (rhoPos src.1 src.2)

/-- Chi on the AVX2 kernel's registers. -/
def avx2Chi (A : LaneRegs 256) : LaneRegs 256 :=
  ofRegs fun x y => regAt A x y ^^^ (~~~(regAt A (x + 1) y) &&& regAt A (x + 2) y)

/-- Iota: the constant is broadcast to all four elements (R242). -/
def avx2Iota (i : Nat) (A : LaneRegs 256) : LaneRegs 256 := A.set 0 (A[0] ^^^ of256 fun _ => rc i)

/-- One round of the AVX2 kernel. -/
def avx2Round (i : Nat) (A : LaneRegs 256) : LaneRegs 256 := avx2Iota i (avx2Chi (avx2RhoPi (avx2Theta A)))

/-- The internal pack: state j in element j (R244). -/
def avx2Pack (T : KStates 4) : LaneRegs 256 := Vector.ofFn fun k => of256 fun e => T[e][k][0]

/-- The state in element `e`. -/
def avx2Unpack (A : LaneRegs 256) (e : Fin 4) : KState 64 1 := Vector.ofFn fun k => Vector.replicate 1 (elem256 A[k] e)

/-- The AVX2 kernel: pack, nr rounds reading the constants RC[24−nr] to RC[23] in order, unpack (R242, R244). -/
def avx2Kernel (T : KStates 4) (nr : Nat) : KStates 4 :=
  let A := (roundWindow 24 nr).foldl (fun A i => avx2Round i A) (avx2Pack T)
  Vector.ofFn fun e => avx2Unpack A e

end Sys2Proof.Machine
end

