-- ==== Sys2Proof/Safety.lean ====
section
/-! DEFINITION. Safety.lean: what the statements are made of: the invariant of the machine, when a memory command runs,
what a command leaves unchanged, and the check table of 60_exceptions.md R303. -/

namespace Sys2Proof.Machine

/-! ### The invariant -/

/-- What the registers of one command stream always satisfy: BASE has ADDR_WIDTH bits (R29); ECODE is 0 while ABORTED is
0 and one of the codes 1 to 7 after an abort (R30, R300); a recorded selection has a round count the lane type admits
and the backend that the probed token selects (R32, R261, R262), and without one SEL is 0. -/
def StreamRegs.Good (h : HostParams) (c : Cap) (r : StreamRegs) : Prop :=
  r.base < 2 ^ h.addrWidth ∧
  (r.status.aborted = false → r.status.ecode = 0) ∧
  (r.status.aborted = true → 1 ≤ r.status.ecode.toNat ∧ r.status.ecode.toNat ≤ 7) ∧
  (r.sel.valid = false → r.sel = Sel.reset) ∧
  (r.sel.valid = true → c.probed = true ∧ 1 ≤ r.sel.nr.toNat ∧ r.sel.nr.toNat ≤ r.sel.lane.maxR ∧
    r.sel.backend = select r.sel.lane c)

/-- What CAP always satisfies: it is 0 while unprobed, and what a probe of this host writes once probed (R31, R260). -/
def Cap.Good (h : HostParams) (c : Cap) : Prop := c = if c.probed then Cap.ofProbe h else Cap.reset

/-- The invariant: memory and the register sets are in canonical form, every listed address exists (R60), CAP and every
thread's registers are good, and every recorded buffer lies in the address space (R66). -/
def State.Inv (s : State) : Prop :=
  Memory.wf s.mem = true ∧
  (∀ e ∈ s.mem, e.1 < 2 ^ s.host.addrWidth) ∧
  Sparse.wf StreamRegs.reset s.streams = true ∧
  Cap.Good s.host s.cap ∧
  (∀ t, StreamRegs.Good s.host s.cap (s.regsOf t)) ∧
  (∀ f ∈ s.window, f.base + f.size ≤ 2 ^ s.host.addrWidth)

/-! ### When a memory command runs, and what it leaves unchanged -/

/-- What a memory command needs of the state: BASE written, aligned, the whole buffer in the address space and admitted,
and no overlap with a buffer of another thread that it is not ordered after (R29, R65, R66, R73). -/
abbrev State.Ready (s : State) (align size : Nat) : Prop :=
  s.regs.baseWritten = true ∧ s.regs.base % align = 0 ∧ s.regs.base + size ≤ 2 ^ s.host.addrWidth ∧
    s.host.memAdmit s.regs.base size = true ∧ s.overlaps s.regs.base size = false

/-- The same for one state of lane type L at BASE. -/
abbrev State.ReadyFor (s : State) (lt : LaneType) : Prop := s.Ready lt.align lt.bufferBytes

/-- The frame of a memory command: every register of every thread, CAP, the host parameters, the pending actions and the
last host read are unchanged, and every byte outside the buffer of `size` bytes at BASE reads as before. -/
def BufferOnly (s t : State) (size : Nat) : Prop :=
  t.host = s.host ∧ t.cap = s.cap ∧ t.streams = s.streams ∧ t.cur = s.cur ∧ t.pending = s.pending ∧
  t.readData = s.readData ∧
  ∀ a, a < s.regs.base ∨ s.regs.base + size ≤ a → t.mem.byteAt a = s.mem.byteAt a

/-- The frame of a command that accesses no memory: it changes at most CAP and the registers of the running thread. -/
def RegistersOnly (s t : State) : Prop :=
  t.host = s.host ∧ t.mem = s.mem ∧ t.cur = s.cur ∧ t.pending = s.pending ∧ t.window = s.window ∧
  t.readData = s.readData ∧
  ∀ u, u ≠ s.cur → t.regsOf u = s.regsOf u

/-- The state in the buffer at BASE, read as lane type L. -/
def State.operand (s : State) (lt : LaneType) : KState lt.width lt.elems :=
  loadState s.mem s.regs.base lt.width lt.elems

/-- Logical state `j` of a vector state (R191): `S⟨j⟩[k] = S[k].e[j]`. -/
def stateOf {n : Nat} (S : KState 64 n) (j : Fin n) : KState 64 1 :=
  Vector.ofFn fun k => Vector.replicate 1 S[k][j]

/-- Run commands one after the other, each from the state the one before left. -/
def runAll : List Instr → State → Out
  | [], s => .next s
  | i :: is, s =>
    match exec i s with
    | .next t => runAll is t
    | .fault r => .fault r
    | .refused r => .refused r

/-- The state with thread `u` as the running one. -/
def State.onThread (s : State) (u : Nat) : State := { s with cur := u }

/-- The state without its unspecified working state (R34). -/
def State.forgetWork (s : State) : State := { s with work := Config.resetWork, freeCount := 0 }

/-- The outcome without the unspecified working state of a next state (R34). -/
def forgetWork : Out → Out
  | .next s => .next s.forgetWork
  | .fault r => .fault r
  | .refused r => .refused r

/-- The reserved encodings, in the words of R98. -/
def ReservedWord (v : Word) : Prop :=
  (∀ o : Opcode, opcField v ≠ o.code) ∨ rsv1Field v ≠ 0 ∨ rsv0Field v ≠ 0 ∨
  ∃ o : Opcode, opcField v = o.code ∧
    ((o.usesLw = true ∧ 7 ≤ (lwField v).toNat) ∨ (o.usesLw = false ∧ lwField v ≠ 0) ∨
      (o.usesNs = false ∧ nsField v ≠ 0) ∨ (o.usesNr = false ∧ nrField v ≠ 0) ∨
      (o.usesRci = true ∧ 24 ≤ (nrField v).toNat))

/-- The LFSR of 93_implementation_defined.md I1, polynomial x^8 + x^6 + x^5 + x^4 + 1, after `t` steps from 1. -/
def lfsr : Nat → BitVec 9
  | 0 => 1
  | t + 1 =>
    let v := lfsr t <<< 1
    if v.getLsbD 8 then v ^^^ 0x171 else v

/-- RC[i] regenerated: bit 2^j − 1 is rc(j + 7i) for j = 0..6, every other bit 0 (I1). -/
def rcRegenerated (i : Nat) : BitVec 64 :=
  (List.range 7).foldl (fun c j => if (lfsr (j + 7 * i)).getLsbD 0 then c ||| (1#64 <<< (2 ^ j - 1)) else c) 0

/-- The walk (x, y) → (y, 2x + 3y) from lane (1, 0), after `t` steps (R24). -/
def piWalk : Nat → Fin 5 × Fin 5
  | 0 => (1, 0)
  | t + 1 => ((piWalk t).2, 2 * (piWalk t).1 + 3 * (piWalk t).2)

/-! ### The check table of R303 -/

/-- What a failing row of R303 gives. -/
inductive RowOutcome where
  | aborts (code : AbortCode)
  | refuses (r : Refusal)
  | stuck (f : Fault)
  deriving DecidableEq, Repr

/-- The outcome of the command that a failing row decides. -/
def RowOutcome.outcome (s : State) : RowOutcome → Out
  | .aborts code => .next (s.takeAbort code)
  | .refuses r => .refused r
  | .stuck f => .fault f

/-- Row 3: the state counts a command requires, where NS is an operand (R96). -/
def requiredNs (s : State) : Instr → Option (BitVec 4 × List Nat)
  | .theta lt ns => some (ns, [lt.elems])
  | .rhopi lt ns => some (ns, [lt.elems])
  | .chi lt ns => some (ns, [lt.elems])
  | .iota lt ns _ => some (ns, [lt.elems])
  | .round lt ns _ => some (ns, [lt.elems])
  | .permute lt ns _ => some (ns, [lt.elems])
  | .pack ns => some (ns, [2, 4, 8])
  | .unpack ns => some (ns, [2, 4, 8])
  | .armP1 ns _ => some (ns, [1])
  | .armP2 ns _ => some (ns, [2])
  | .avx2P4 ns _ => some (ns, [4])
  | .probe => none
  | .dispatch _ _ => none
  | .pdegree => none
  | .permuteSel ns => some (ns, [s.regs.sel.lane.elems])

/-- Rows 4 and 5: the round count of a command with its least and greatest value, where it has one (R96, R300). -/
def roundBound : Instr → Option (BitVec 5 × Nat × Nat)
  | .permute lt _ nr => some (nr, 0, lt.maxR)
  | .armP1 _ nr => some (nr, 1, 24)
  | .armP2 _ nr => some (nr, 1, 24)
  | .avx2P4 _ nr => some (nr, 1, 24)
  | .dispatch lt nr => some (nr, 1, min 24 lt.maxR)
  | .theta _ _ | .rhopi _ _ | .chi _ _ | .iota _ _ _ | .round _ _ _ | .pack _ | .unpack _ | .probe | .pdegree
  | .permuteSel _ => none

/-- Row 6: whether the host has the extension a wrapper command needs. -/
def extensionPresent (s : State) : Instr → Bool
  | .armP1 _ _ | .armP2 _ _ => s.host.hasArmSha3
  | .avx2P4 _ _ => s.host.hasAvx2
  | .theta _ _ | .rhopi _ _ | .chi _ _ | .iota _ _ _ | .round _ _ _ | .permute _ _ _ | .pack _ | .unpack _ | .probe
  | .dispatch _ _ | .pdegree | .permuteSel _ => true

/-- Rows 7 to 9: the alignment and the size in bytes of the buffer of a command that accesses memory (R62 to R65). -/
def bufferOf (s : State) : Instr → Option (Nat × Nat)
  | .theta lt _ => some (lt.align, lt.bufferBytes)
  | .rhopi lt _ => some (lt.align, lt.bufferBytes)
  | .chi lt _ => some (lt.align, lt.bufferBytes)
  | .iota lt _ _ => some (lt.align, lt.bufferBytes)
  | .round lt _ _ => some (lt.align, lt.bufferBytes)
  | .permute lt _ _ => some (lt.align, lt.bufferBytes)
  | .pack ns => some (8, 200 * ns.toNat)
  | .unpack ns => some (8, 200 * ns.toNat)
  | .armP1 _ _ => some (8, 200)
  | .armP2 _ _ => some (8, 400)
  | .avx2P4 _ _ => some (8, 800)
  | .probe => none
  | .dispatch _ _ => none
  | .pdegree => none
  | .permuteSel _ => some (s.regs.sel.lane.align, s.regs.sel.lane.bufferBytes)

/-- Row 2 applies to PDEGREE and PERMUTE_SEL. -/
def needsSelection : Instr → Bool
  | .pdegree | .permuteSel _ => true
  | .theta _ _ | .rhopi _ _ | .chi _ _ | .iota _ _ _ | .round _ _ _ | .permute _ _ _ | .pack _ | .unpack _
  | .armP1 _ _ | .armP2 _ _ | .avx2P4 _ _ | .probe | .dispatch _ _ => false

/-- Rows 2 to 9 of R303 for one command, each with whether its check holds (a row that does not apply holds) and what its
failure gives. Row 7 has no value to test while BASE is unwritten (assumption 5). The last row is the refusal of R73. -/
def checkRows (s : State) (i : Instr) : List (Bool × RowOutcome) :=
  let buffer (p : Nat → Nat → Bool) : Bool := match bufferOf s i with
    | some (align, size) => p align size
    | none => true
  [(!needsSelection i || s.regs.sel.valid, .aborts .noSelection),
   (match requiredNs s i with | some (ns, counts) => counts.contains ns.toNat | none => true, .aborts .stateCount),
   (match roundBound i with | some (nr, lo, _) => decide (lo ≤ nr.toNat) | none => true, .aborts .roundsZero),
   (match roundBound i with | some (nr, _, hi) => decide (nr.toNat ≤ hi) | none => true, .aborts .roundsExceed),
   (extensionPresent s i, .aborts .noCapability),
   (buffer fun align _ => !s.regs.baseWritten || decide (s.regs.base % align = 0), .aborts .misaligned),
   (buffer fun _ _ => s.regs.baseWritten, .refuses .baseUnwritten),
   (buffer fun _ size => decide (s.regs.base + size ≤ 2 ^ s.host.addrWidth), .stuck .stuckPastTop),
   (buffer fun _ size => s.host.memAdmit s.regs.base size, .stuck .stuckNotAdmitted),
   (buffer fun _ size => !s.overlaps s.regs.base size, .refuses .overlappingBuffers)]

/-- The first failing row of R303 for a command word, row 1 being the decode; none when every check holds. -/
def firstFailing (s : State) (v : Word) : Option RowOutcome :=
  match decode v with
  | .error _ => some (.aborts .reserved)
  | .ok i => ((checkRows s i).find? fun row => !row.1).map Prod.snd

end Sys2Proof.Machine
end

