-- ==== Sys2Proof/Certificates/Slice0/Obligations.lean ====
section
/-! DEFINITION. Certificates/Slice0/Obligations.lean: the statements about the model, from the numbered rules of spec/. -/

open Sys2Proof Sys2Proof.Machine

/-! ### Encoding -/

/-- R91, R92, R96, D36: decoding the word of a well-formed command gives the command back, with every operand. -/
def Obligations.DecodeEncodeRoundTrip : Prop :=
  ∀ i : Instr, i.wf = true → decode (encode i) = .ok i

/-- D36: each command has exactly one encoding: a word that decodes is the word of the well-formed command it decodes
to. -/
def Obligations.EachCommandHasOneWord : Prop :=
  ∀ (v : Word) (i : Instr), decode v = .ok i → i.wf = true ∧ encode i = v

/-- R97: a word matches an opcode under its mask exactly when its fields select that opcode; the masks are the listed
ones and the match value is OPC<<24. -/
def Obligations.MaskSelectsOpcode : Prop :=
  (∀ (o : Opcode) (v : Word), (v &&& o.mask = o.matchWord) ↔
    (opcField v = o.code ∧ rsv1Field v = 0 ∧ rsv0Field v = 0 ∧ (o.usesLw = false → lwField v = 0) ∧
      (o.usesNs = false → nsField v = 0) ∧ (o.usesNr = false → nrField v = 0))) ∧
  (∀ o ∈ [Opcode.theta, .rhopi, .chi], o.mask = 0xFF0FF0FF) ∧
  (∀ o ∈ [Opcode.iota, .round, .permute], o.mask = 0xFF0FF0E0) ∧
  (∀ o ∈ [Opcode.pack, .unpack, .permuteSel], o.mask = 0xFFFFF0FF) ∧
  (∀ o ∈ [Opcode.armP1, .armP2, .avx2P4], o.mask = 0xFFFFF0E0) ∧
  Opcode.dispatch.mask = 0xFF0FFFE0 ∧
  (∀ o ∈ [Opcode.probe, .pdegree], o.mask = 0xFFFFFFFF) ∧
  Opcode.theta.matchWord = 0x01000000

/-- R98: on a block that has not aborted, a reserved encoding written to CMD raises Abort(E_RESERVED) and does nothing
else; every other word decodes to a well-formed command. That the aborting step answers a next state is the model's choice
(assumption 4), and so is that it leaves the working state alone (assumption 16). -/
def Obligations.ReservedWordAborts : Prop :=
  ∀ v : Word,
    (ReservedWord v → ∀ (s : State) (u : Nat) (rest : List HostEvent),
      s.pending = ⟨u, .writeReg 0 v.toNat⟩ :: rest → s.anyAborted = false →
      step s = .next (((s.take ⟨u, .writeReg 0 v.toNat⟩ rest).setCmd v).takeAbort .reserved)) ∧
    (¬ ReservedWord v → ∃ i, i.wf = true ∧ decode v = .ok i)

/-- R103: the worked encodings, and each of the words decodes to its command. -/
def Obligations.WorkedEncodings : Prop :=
  ∀ p ∈ [(AsmLine.f1600, 0x10300118#32), (.permute .w64 24 (some 1), 0x10300118#32), (.f200, 0x10000112#32),
      (.permute .w8 18 (some 1), 0x10000112#32), (.permute .v2 24 (some 2), 0x10400218#32),
      (.theta .w64 (some 1), 0x01300100#32), (.iota .w8 17 (some 1), 0x04000111#32),
      (.round .w64 0 (some 1), 0x05300100#32)] ++
    [(.pack 4, 0x18000400#32), (.armP1 24, 0x20000118#32), (.avx2P4 12, 0x2800040C#32), (.probe, 0x30000000#32),
      (.dispatch .w64 24, 0x31300018#32), (.pdegree, 0x32000000#32), (.permuteSel 1, 0x33000100#32)],
    encode p.1.command = p.2 ∧ decode p.2 = .ok p.1.command

/-- R102: each pseudo-instruction expands to exactly one command. -/
def Obligations.PseudoInstructionsExpand : Prop :=
  (∀ lt nr, (BitVec.toNat nr = lt.maxR) → ∀ ns, (BitVec.toNat ns = lt.elems) →
    (AsmLine.permuteFull lt).command = (AsmLine.permute lt nr (some ns)).command) ∧
  AsmLine.f200.command = (AsmLine.permute .w8 18 (some 1)).command ∧
  AsmLine.f400.command = (AsmLine.permute .w16 20 (some 1)).command ∧
  AsmLine.f800.command = (AsmLine.permute .w32 22 (some 1)).command ∧
  AsmLine.f1600.command = (AsmLine.permute .w64 24 (some 1)).command ∧
  ∀ nr, (AsmLine.p1600 nr).command = (AsmLine.permute .w64 nr (some 1)).command

/-! ### Reset, idling and the invariant -/

/-- R340: the reset action sets every register of every thread and CAP to the table's values, leaves BASE unwritten, ends
the aborted condition, and changes neither memory nor the host parameters. That the pending host actions stay is the model's
choice (assumption 14). -/
def Obligations.ResetActionValues : Prop :=
  ∀ (s : State) (u : Nat) (rest : List HostEvent), s.pending = ⟨u, .reset⟩ :: rest →
    ∃ t, step s = .next t ∧
      (∀ x, (t.regsOf x).cmd = 0 ∧ (t.regsOf x).baseWritten = false ∧ (t.regsOf x).status.word = 0 ∧
        (t.regsOf x).sel.word = 0 ∧ (t.regsOf x).result = 0) ∧
      t.cap.word = 0 ∧ t.anyAborted = false ∧ t.mem = s.mem ∧ t.host = s.host ∧ t.pending = rest

/-- The invariant holds at power-on of every host with every canonical memory, and at reset, whose host is the model's choice
(assumption 1). -/
def Obligations.InvariantHoldsAtReset : Prop :=
  (∀ (h : HostParams) (m : Memory), m.wf = true → (∀ e ∈ m, e.1 < 2 ^ h.addrWidth) → (State.resetOn h m).Inv) ∧
  State.reset.Inv

/-- Every step keeps the invariant, from every state that meets it: memory and register sets stay canonical and inside
the address space, STATUS.ECODE is 0 exactly while ABORTED is 0, CAP is what a probe of this host writes, and SEL is a
selection DISPATCH can make (R30, R31, R32, R60, R261, R262, R300). The recorded buffers are the model's own field
(assumption 9). -/
def Obligations.StepKeepsInvariant : Prop :=
  ∀ s t : State, s.Inv → step s = .next t → t.Inv

/-! ### The step -/

/-- R90: a CMD write on a block that has not aborted stores the word and runs the command it decodes to; withFetchWord
makes exactly that the next step. With no action to come, a block that has not aborted holds its state (R313, R341). That a
value of more than 32 bits runs its low 32 bits is the model's choice (assumption 11), and so is withFetchWord, a host's CMD
write put in front (assumption 6). -/
def Obligations.StepRunsDecodedCommand : Prop :=
  (∀ (s : State) (u v : Nat) (rest : List HostEvent) (i : Instr),
    s.pending = ⟨u, .writeReg 0 v⟩ :: rest → s.anyAborted = false → decode (BitVec.ofNat 32 v) = .ok i →
    step s = exec i ((s.take ⟨u, .writeReg 0 v⟩ rest).setCmd (BitVec.ofNat 32 v))) ∧
  (∀ (s : State) (nbits w : Nat) (i : Instr),
    s.anyAborted = false → decodeTableWord nbits w = some i →
    step (s.withFetchWord nbits w) = exec i (s.setCmd (BitVec.ofNat 32 (w % 2 ^ nbits)))) ∧
  (∀ s : State, s.pending = [] → s.anyAborted = false → step s = .next s)

/-- R28, R90: whatever a CMD write leads to, when it answers a next state CMD holds the word written, in that thread and
no other. -/
def Obligations.CmdHoldsLastWord : Prop :=
  ∀ (s t : State) (u : Nat) (v : Word) (rest : List HostEvent),
    s.pending = ⟨u, .writeReg 0 v.toNat⟩ :: rest → step s = .next t →
    (t.regsOf u).cmd = v ∧ ∀ x, x ≠ u → (t.regsOf x).cmd = (s.regsOf x).cmd

/-- R27, R29: a host write of BASE writes BASE alone; a write of registers 2 to 5 has no effect; a read or a write of a
number above 5 is refused. That a value wider than BASE is cut to its low ADDR_WIDTH bits is the model's choice
(assumption 11). -/
def Obligations.HostRegisterWrites : Prop :=
  ∀ (s : State) (u v : Nat) (rest : List HostEvent),
    (s.pending = ⟨u, .writeReg 1 v⟩ :: rest → ∃ t, step s = .next t ∧
      t.regsOf u = { s.regsOf u with base := v % 2 ^ s.host.addrWidth, baseWritten := true } ∧
      (∀ x, x ≠ u → t.regsOf x = s.regsOf x) ∧ t.mem = s.mem ∧ t.cap = s.cap ∧ t.host = s.host ∧ t.pending = rest) ∧
    (∀ n, 2 ≤ n → n ≤ 5 → s.pending = ⟨u, .writeReg n v⟩ :: rest →
      step s = .next { s with pending := rest, cur := u }) ∧
    (∀ n, 6 ≤ n → s.pending = ⟨u, .writeReg n v⟩ :: rest → step s = .refused .noSuchRegister) ∧
    (∀ n, 6 ≤ n → s.pending = ⟨u, .readReg n⟩ :: rest → step s = .refused .noSuchRegister)

/-- R27 to R33: a host read returns the register's word and changes nothing else. Where the value goes, readData, is the
model's choice (assumption 21), and so is that a BASE that was never written answers what it holds (assumption 2). -/
def Obligations.HostRegisterReads : Prop :=
  ∀ (s : State) (u n : Nat) (rest : List HostEvent), s.pending = ⟨u, .readReg n⟩ :: rest →
    (n = 0 → step s = .next { s with pending := rest, cur := u, readData := (s.regsOf u).cmd.toNat }) ∧
    (n = 1 → step s = .next { s with pending := rest, cur := u, readData := (s.regsOf u).base }) ∧
    (n = 2 → step s = .next { s with pending := rest, cur := u, readData := (s.regsOf u).status.word.toNat }) ∧
    (n = 3 → step s = .next { s with pending := rest, cur := u, readData := s.cap.word.toNat }) ∧
    (n = 4 → step s = .next { s with pending := rest, cur := u, readData := (s.regsOf u).sel.word.toNat }) ∧
    (n = 5 → step s = .next { s with pending := rest, cur := u, readData := (s.regsOf u).result.toNat })

/-- R30 to R32: the fields of STATUS, CAP and SEL stand at the listed bits, and the reserved bits read as 0. The numbers the
fields hold are those of R300 (abort codes), R92 (lane types) and R32 (backends). -/
def Obligations.RegisterWordLayouts : Prop :=
  (∀ r : Status, r.word.getLsbD 0 = r.aborted ∧ r.word.extractLsb' 1 3 = 0 ∧ r.word.extractLsb' 4 4 = r.ecode ∧
    r.word.extractLsb' 8 24 = 0) ∧
  (∀ c : Cap, c.word.getLsbD 0 = c.probed ∧ c.word.getLsbD 1 = c.sha3 ∧ c.word.getLsbD 2 = c.avx2 ∧
    c.word.extractLsb' 3 29 = 0) ∧
  (∀ x : Sel, x.word.getLsbD 0 = x.valid ∧ x.word.extractLsb' 1 3 = 0 ∧ x.word.extractLsb' 4 4 = x.lane.code ∧
    x.word.extractLsb' 8 5 = x.nr ∧ x.word.extractLsb' 13 3 = 0 ∧ x.word.extractLsb' 16 2 = x.backend.bits ∧
    x.word.extractLsb' 18 14 = 0) ∧
  (∀ c : AbortCode, (c, c.bits) ∈ [(AbortCode.roundsExceed, 1#4), (.roundsZero, 2#4), (.stateCount, 3#4), (.noCapability, 4#4),
    (.reserved, 5#4), (.misaligned, 6#4), (.noSelection, 7#4)]) ∧
  (∀ lt : LaneType, (lt, lt.code) ∈ [(LaneType.w8, 0#4), (.w16, 1#4), (.w32, 2#4), (.w64, 3#4), (.v2, 4#4), (.v4, 5#4),
    (.v8, 6#4)]) ∧
  (∀ b : Backend, (b, b.bits) ∈ [(Backend.portable, 0#2), (.armP1, 1#2), (.armP2, 2#2), (.avx2P4, 3#2)])

/-! ### Tables, stages and the round -/

/-- R22 to R24, I1: the tables regenerate: RC from the LFSR, RHO[t] = (t+1)(t+2)/2 mod 64, PI[t] the lane the walk reaches
after t+1 steps, each index 1 to 24 once. -/
def Obligations.LookupTablesRegenerate : Prop :=
  rcTable.length = 24 ∧ (∀ i, i < 24 → rc i = rcRegenerated i) ∧
  rhoTable.length = 24 ∧ (∀ t, t < 24 → rhoTable.getD t 0 = ((t + 1) * (t + 2) / 2) % 64) ∧
  piTable.length = 24 ∧ (∀ t, t < 24 → piTable.getD t 0 = laneIndex (piWalk (t + 1)).1 (piWalk (t + 1)).2) ∧
  piTable.Nodup ∧ (0 : Fin 25) ∉ piTable

/-- R130: theta, element by element: each lane is XORed with C[x−1] and C[x+1] rotated by 1, C being the parities of the
state before. -/
def Obligations.ThetaFormula : Prop :=
  ∀ (w n : Nat) (S : KState w n) (x y : Fin 5) (j : Nat) (_ : j < n),
    let C := fun c : Fin 5 => (laneAt S c 0)[j] ^^^ (laneAt S c 1)[j] ^^^ (laneAt S c 2)[j] ^^^ (laneAt S c 3)[j] ^^^
      (laneAt S c 4)[j]
    (laneAt (theta S) x y)[j] = (laneAt S x y)[j] ^^^ (C (x + 4) ^^^ rotl (C (x + 1)) 1)

/-- R131: a state whose five column parities are all zero is a fixed point of theta. -/
def Obligations.ThetaFixesZeroParity : Prop :=
  ∀ (w n : Nat) (S : KState w n), (∀ x : Fin 5, (columnParities S)[x] = bcast n 0) → theta S = S

/-- R25: the fused rho-pi pass moves the lane at P(t) to PI[t] rotated by RHO[t], keeps lane 0, and moves the lane (x, y) to
(y, 2x + 3y) rotated by RHOPOS, the listed table. Rotating is R12's, of each element, by n mod w at every width w (C2): bit i
goes to bit (i + n) mod w. -/
def Obligations.RhopiMovesEveryLane : Prop :=
  rhoPosTable = [0, 1, 62, 28, 27, 36, 44, 6, 55, 20, 3, 10, 43, 25, 39, 41, 45, 15, 21, 8, 18, 2, 61, 56, 14] ∧
  (∀ x y : Fin 5, rhoPosTable[5 * y.val + x.val]? = some (rhoPos x y)) ∧
  ∀ (w n : Nat) (S : KState w n),
    (rhopi S)[0] = S[0] ∧
    (∀ t, t < 24 → (rhopi S)[piTable.getD t 0] =
      laneRotl S[if t = 0 then (1 : Fin 25) else piTable.getD (t - 1) 0] (rhoTable.getD t 0)) ∧
    (∀ x y : Fin 5, laneAt (rhopi S) y (2 * x + 3 * y) = laneRotl (laneAt S x y) (rhoPos x y)) ∧
    (∀ (k : Fin 25) (r j : Nat) (_ : j < n), (laneRotl S[k] r)[j] = rotl S[k][j] r ∧
      ∀ i, i < w → (rotl S[k][j] r).getLsbD ((i + r) % w) = S[k][j].getLsbD i)

/-- R134: chi, element by element, from the row's pre-chi values; a row of the result depends on that row alone (R135). -/
def Obligations.ChiFormula : Prop :=
  (∀ (w n : Nat) (S : KState w n) (x y : Fin 5) (j : Nat) (_ : j < n),
    (laneAt (chi S) x y)[j] = (laneAt S x y)[j] ^^^ (~~~(laneAt S (x + 1) y)[j] &&& (laneAt S (x + 2) y)[j])) ∧
  (∀ (w n : Nat) (S T : KState w n) (y : Fin 5), (∀ x, laneAt S x y = laneAt T x y) →
    ∀ x, laneAt (chi S) x y = laneAt (chi T) x y)

/-- R136: iota XORs the truncated, broadcast constant into lane 0 and leaves lanes 1 to 24 alone. -/
def Obligations.IotaFormula : Prop :=
  ∀ (w n i : Nat) (S : KState w n),
    (∀ (j : Nat) (_ : j < n), (iota i S)[0][j] = S[0][j] ^^^ (rc i).setWidth w) ∧
    ∀ (k : Nat) (_ : k < 25), k ≠ 0 → (iota i S)[k] = S[k]

/-- R139: a round on the all-zero state gives lane 0 the truncated constant and leaves every other lane 0. -/
def Obligations.RoundOnZero : Prop :=
  ∀ (w n i : Nat), keccakRound i (Vector.replicate 25 (bcast n 0) : KState w n) =
    (Vector.replicate 25 (bcast n 0) : KState w n).set 0 (bcast n (trunc w (rc i)))

/-! ### The permutation -/

/-- R170, R172, R175: no rounds change nothing, and one round more runs first, with the constant just below the window. -/
def Obligations.PermuteAddsOldestRound : Prop :=
  ∀ (w n maxR : Nat) (S : KState w n),
    permute maxR 0 S = S ∧
    ∀ nr, nr < maxR → permute maxR (nr + 1) S = permute maxR nr (keccakRound (maxR - (nr + 1)) S)

/-- R172, R173, C1: one round on the all-zero state uses RC[maxR−1], truncated: the tail of the lane type's own
schedule, RC[17], RC[19], RC[21] and RC[23]. The width, the number of states, maxR, the alignment and the buffer's bytes of
each lane type are those of R6, R65, R92, R62 and R64. -/
def Obligations.OneRoundUsesLastNativeConstant : Prop :=
  (∀ lt : LaneType, (lt, lt.width, lt.elems, lt.maxR, lt.align, lt.bufferBytes) ∈
    [(LaneType.w8, 8, 1, 18, 1, 25), (.w16, 16, 1, 20, 2, 50), (.w32, 32, 1, 22, 4, 100), (.w64, 64, 1, 24, 8, 200),
      (.v2, 64, 2, 24, 8, 400), (.v4, 64, 4, 24, 8, 800), (.v8, 64, 8, 24, 8, 1600)]) ∧
  ∀ (lt : LaneType) (i : Nat), (lt, i) ∈ [(LaneType.w8, 17), (.w16, 19), (.w32, 21), (.w64, 23), (.v2, 23), (.v4, 23),
      (.v8, 23)] →
    permute lt.maxR 1 (Vector.replicate 25 (bcast lt.elems 0) : KState lt.width lt.elems) =
      (Vector.replicate 25 (bcast lt.elems 0)).set 0 (bcast lt.elems (trunc lt.width (rc i)))

/-- R191: lockstep: element j of the vector permutation is the 64-bit permutation of logical state j. -/
def Obligations.VectorLanesRunInLockstep : Prop :=
  ∀ (n nr : Nat) (S : KState 64 n) (j : Fin n), nr ≤ 24 →
    stateOf (permute 24 nr S) j = permuteW64 nr (stateOf S j)

/-- R180: PERMUTE with NR = nr is the sequence of ROUND commands over the window, and ROUND is THETA, RHOPI, CHI, IOTA,
each on the same buffer. -/
def Obligations.PermuteIsRoundSequence : Prop :=
  (∀ (s : State) (lt : LaneType) (ns : BitVec 4) (nr : BitVec 5), s.mem.wf = true → ns.toNat = lt.elems →
    1 ≤ nr.toNat → nr.toNat ≤ lt.maxR → s.ReadyFor lt →
    ∃ t t', exec (.permute lt ns nr) s = .next t ∧
      runAll ((roundWindow lt.maxR nr.toNat).map fun i => .round lt ns (BitVec.ofNat 5 i)) s = .next t' ∧
      t'.mem = t.mem ∧ t'.streams = t.streams ∧ t'.cap = t.cap) ∧
  (∀ (s : State) (lt : LaneType) (ns : BitVec 4) (rci : BitVec 5), s.mem.wf = true → ns.toNat = lt.elems →
    rci.toNat < 24 → s.ReadyFor lt →
    ∃ t t', exec (.round lt ns rci) s = .next t ∧
      runAll [.theta lt ns, .rhopi lt ns, .chi lt ns, .iota lt ns rci] s = .next t' ∧
      t'.mem = t.mem ∧ t'.streams = t.streams ∧ t'.cap = t.cap)

/-! ### The commands complete -/

/-- R129, R131: THETA applies theta to the state at BASE, and changes nothing but its buffer. -/
def Obligations.ThetaCompletes : Prop :=
  ∀ (s : State) (lt : LaneType) (ns : BitVec 4), ns.toNat = lt.elems → s.ReadyFor lt →
    ∃ t, exec (.theta lt ns) s = .next t ∧ t.operand lt = theta (s.operand lt) ∧ BufferOnly s t lt.bufferBytes

/-- R129, R133: RHOPI applies rho-pi to the state at BASE, and changes nothing but its buffer. -/
def Obligations.RhopiCompletes : Prop :=
  ∀ (s : State) (lt : LaneType) (ns : BitVec 4), ns.toNat = lt.elems → s.ReadyFor lt →
    ∃ t, exec (.rhopi lt ns) s = .next t ∧ t.operand lt = rhopi (s.operand lt) ∧ BufferOnly s t lt.bufferBytes

/-- R129, R135: CHI applies chi to the state at BASE, and changes nothing but its buffer. -/
def Obligations.ChiCompletes : Prop :=
  ∀ (s : State) (lt : LaneType) (ns : BitVec 4), ns.toNat = lt.elems → s.ReadyFor lt →
    ∃ t, exec (.chi lt ns) s = .next t ∧ t.operand lt = chi (s.operand lt) ∧ BufferOnly s t lt.bufferBytes

/-- R129, R137: IOTA applies iota with the constant at absolute index RCI, for every lane type and every RCI 0 to 23. -/
def Obligations.IotaCompletes : Prop :=
  ∀ (s : State) (lt : LaneType) (ns : BitVec 4) (rci : BitVec 5), ns.toNat = lt.elems → rci.toNat < 24 →
    s.ReadyFor lt →
    ∃ t, exec (.iota lt ns rci) s = .next t ∧ t.operand lt = iota rci.toNat (s.operand lt) ∧
      BufferOnly s t lt.bufferBytes

/-- R129, R138, R139: ROUND applies theta, rho-pi, chi and iota with the constant at absolute index RCI. -/
def Obligations.RoundCompletes : Prop :=
  ∀ (s : State) (lt : LaneType) (ns : BitVec 4) (rci : BitVec 5), ns.toNat = lt.elems → rci.toNat < 24 →
    s.ReadyFor lt →
    ∃ t, exec (.round lt ns rci) s = .next t ∧
      t.operand lt = iota rci.toNat (chi (rhopi (theta (s.operand lt)))) ∧ BufferOnly s t lt.bufferBytes

/-- R129, R171, R175: PERMUTE runs nr rounds on the state at BASE, for every nr from 0 to maxR(L). -/
def Obligations.PermuteCompletes : Prop :=
  ∀ (s : State) (lt : LaneType) (ns : BitVec 4) (nr : BitVec 5), ns.toNat = lt.elems → nr.toNat ≤ lt.maxR →
    s.ReadyFor lt →
    ∃ t, exec (.permute lt ns nr) s = .next t ∧ t.operand lt = permute lt.maxR nr.toNat (s.operand lt) ∧
      BufferOnly s t lt.bufferBytes

/-- R192: PACK moves the 8-byte word at offset 8*(25*j + k) to offset 8*(NS*k + j), and changes nothing else. -/
def Obligations.PackCompletes : Prop :=
  ∀ (s : State) (ns : BitVec 4), (ns.toNat = 2 ∨ ns.toNat = 4 ∨ ns.toNat = 8) → s.Ready 8 (200 * ns.toNat) →
    ∃ t, exec (.pack ns) s = .next t ∧
      (∀ k j, k < 25 → j < ns.toNat → memRead t.mem (s.regs.base + 8 * (ns.toNat * k + j)) 8 =
        memRead s.mem (s.regs.base + 8 * (25 * j + k)) 8) ∧
      BufferOnly s t (200 * ns.toNat)

/-- R193: UNPACK moves the 8-byte word at offset 8*(NS*k + j) to offset 8*(25*j + k), and changes nothing else. -/
def Obligations.UnpackCompletes : Prop :=
  ∀ (s : State) (ns : BitVec 4), (ns.toNat = 2 ∨ ns.toNat = 4 ∨ ns.toNat = 8) → s.Ready 8 (200 * ns.toNat) →
    ∃ t, exec (.unpack ns) s = .next t ∧
      (∀ k j, k < 25 → j < ns.toNat → memRead t.mem (s.regs.base + 8 * (25 * j + k)) 8 =
        memRead s.mem (s.regs.base + 8 * (ns.toNat * k + j)) 8) ∧
      BufferOnly s t (200 * ns.toNat)

/-- R194: PACK then UNPACK, and UNPACK then PACK, restore every byte of memory. -/
def Obligations.PackUnpackRestoreMemory : Prop :=
  ∀ (s : State) (ns : BitVec 4), s.mem.wf = true → (ns.toNat = 2 ∨ ns.toNat = 4 ∨ ns.toNat = 8) →
    s.Ready 8 (200 * ns.toNat) →
    (∃ t, runAll [.pack ns, .unpack ns] s = .next t ∧ t.mem = s.mem) ∧
    (∃ t, runAll [.unpack ns, .pack ns] s = .next t ∧ t.mem = s.mem)

/-- R195: pack, permute and unpack on one buffer of N state-major states leave each state permuted as a 64-bit state. -/
def Obligations.PackPermuteUnpack : Prop :=
  ∀ (s : State) (lt : LaneType) (ns : BitVec 4) (nr : BitVec 5), lt ∈ [LaneType.v2, .v4, .v8] →
    ns.toNat = lt.elems → nr.toNat ≤ 24 → s.ReadyFor lt →
    ∃ t, runAll [.pack ns, .permute lt ns nr, .unpack ns] s = .next t ∧
      ∀ (j : Nat) (_ : j < lt.elems), (loadStates t.mem s.regs.base lt.elems)[j] =
        permuteW64 nr.toNat (loadStates s.mem s.regs.base lt.elems)[j]

/-- R221: ARM_P1 on a host with the extension permutes the one state at BASE, for every nr from 1 to 24, and writes
nothing else: the dummy state is never written. -/
def Obligations.ArmP1Completes : Prop :=
  ∀ (s : State) (ns : BitVec 4) (nr : BitVec 5), ns.toNat = 1 → 1 ≤ nr.toNat → nr.toNat ≤ 24 →
    s.host.arch = .aarch64 → s.host.sha3 = true → s.Ready 8 200 →
    ∃ t, exec (.armP1 ns nr) s = .next t ∧
      (loadStates t.mem s.regs.base 1)[0] = permuteW64 nr.toNat (loadStates s.mem s.regs.base 1)[0] ∧
      BufferOnly s t 200

/-- R222: ARM_P2 on a host with the extension permutes the two state-major states at BASE. -/
def Obligations.ArmP2Completes : Prop :=
  ∀ (s : State) (ns : BitVec 4) (nr : BitVec 5), ns.toNat = 2 → 1 ≤ nr.toNat → nr.toNat ≤ 24 →
    s.host.arch = .aarch64 → s.host.sha3 = true → s.Ready 8 400 →
    ∃ t, exec (.armP2 ns nr) s = .next t ∧
      (∀ (j : Nat) (_ : j < 2), (loadStates t.mem s.regs.base 2)[j] =
        permuteW64 nr.toNat (loadStates s.mem s.regs.base 2)[j]) ∧
      BufferOnly s t 400

/-- R241: AVX2_P4 on a host with AVX2 permutes the four state-major states at BASE. -/
def Obligations.Avx2P4Completes : Prop :=
  ∀ (s : State) (ns : BitVec 4) (nr : BitVec 5), ns.toNat = 4 → 1 ≤ nr.toNat → nr.toNat ≤ 24 →
    s.host.arch = .x86_64 → s.host.avx2 = true → s.Ready 8 800 →
    ∃ t, exec (.avx2P4 ns nr) s = .next t ∧
      (∀ (j : Nat) (_ : j < 4), (loadStates t.mem s.regs.base 4)[j] =
        permuteW64 nr.toNat (loadStates s.mem s.regs.base 4)[j]) ∧
      BufferOnly s t 800

/-- R225 to R227: the informative structure of the ARM kernel, on 128-bit registers with EOR3, RAX1, XAR and BCAX, computes
the kernel function of R220. That structure is general knowledge, PRESUMED (assumption 18). -/
def Obligations.ArmFusedKernelComputesArm2 : Prop :=
  ∀ (T0 T1 : KState 64 1) (nr : Nat), 1 ≤ nr → nr ≤ 24 → armKernel T0 T1 nr = arm2 T0 T1 nr

/-- R242, R244: the informative structure of the AVX2 kernel, on 256-bit registers with rotations built from two shifts,
computes the kernel function of R240. That structure is general knowledge, PRESUMED (assumption 18). -/
def Obligations.Avx2ShiftKernelComputesAvx4 : Prop :=
  ∀ (T : KStates 4) (nr : Nat), 1 ≤ nr → nr ≤ 24 →
    ((avx2Kernel T nr)[0], (avx2Kernel T nr)[1], (avx2Kernel T nr)[2], (avx2Kernel T nr)[3]) =
      avx4 T[0] T[1] T[2] T[3] nr

/-- R260: PROBE writes the token once, all three fields in one step; a probed token and everything else stay as they
are. -/
def Obligations.ProbeCompletes : Prop :=
  ∀ s : State, ∃ t, exec .probe s = .next t ∧
    (s.cap.probed = false → t.cap.probed = true ∧
      (t.cap.sha3 = true ↔ s.host.arch = .aarch64 ∧ s.host.sha3 = true) ∧
      (t.cap.avx2 = true ↔ s.host.arch = .x86_64 ∧ s.host.avx2 = true)) ∧
    (s.cap.probed = true → t.cap = s.cap) ∧
    t.streams = s.streams ∧ RegistersOnly s t

/-- R261, R262: DISPATCH, for every nr from 1 to min(24, maxR(L)), probes if needed and records the selection: VALID, LW,
NR and the backend of R261's table; every other register, and memory, is unchanged. -/
def Obligations.DispatchCompletes : Prop :=
  ∀ (s : State) (lt : LaneType) (nr : BitVec 5), 1 ≤ nr.toNat → nr.toNat ≤ 24 → nr.toNat ≤ lt.maxR →
    ∃ t, exec (.dispatch lt nr) s = .next t ∧
      (∃ p, exec .probe s = .next p ∧ t.cap = p.cap) ∧
      t.regs = { s.regs with sel := t.regs.sel } ∧
      t.regs.sel.valid = true ∧ t.regs.sel.lane = lt ∧ t.regs.sel.nr = nr ∧
      (lt = .w64 → t.cap.sha3 = true → t.regs.sel.backend = .armP1) ∧
      (lt = .v2 → t.cap.sha3 = true → t.regs.sel.backend = .armP2) ∧
      (lt = .v4 → t.cap.avx2 = true → t.regs.sel.backend = .avx2P4) ∧
      (¬ (lt = .w64 ∧ t.cap.sha3 = true) → ¬ (lt = .v2 ∧ t.cap.sha3 = true) → ¬ (lt = .v4 ∧ t.cap.avx2 = true) →
        t.regs.sel.backend = .portable) ∧
      RegistersOnly s t

/-- R263, R264: PDEGREE with a selection writes RESULT with N(SEL.LW) on the portable path, 2 for the ARM kernel and 4 for
AVX2; every other register, and memory, is unchanged. -/
def Obligations.PdegreeCompletes : Prop :=
  ∀ s : State, s.regs.sel.valid = true →
    ∃ t, exec .pdegree s = .next t ∧
      (s.regs.sel.backend = .portable → t.regs.result.toNat = s.regs.sel.lane.elems) ∧
      (s.regs.sel.backend = .armP1 ∨ s.regs.sel.backend = .armP2 → t.regs.result = 2) ∧
      (s.regs.sel.backend = .avx2P4 → t.regs.result = 4) ∧
      t.regs = { s.regs with result := t.regs.result } ∧ t.cap = s.cap ∧ RegistersOnly s t

/-- R265: PERMUTE_SEL with a selection permutes the state at BASE in the layout of SEL.LW with SEL.NR rounds, and changes
nothing but its buffer. -/
def Obligations.PermuteSelCompletes : Prop :=
  ∀ (s : State) (ns : BitVec 4), s.regs.sel.valid = true → s.regs.sel.nr.toNat ≤ s.regs.sel.lane.maxR →
    ns.toNat = s.regs.sel.lane.elems → s.ReadyFor s.regs.sel.lane →
    ∃ t, exec (.permuteSel ns) s = .next t ∧
      t.operand s.regs.sel.lane = permute s.regs.sel.lane.maxR s.regs.sel.nr.toNat (s.operand s.regs.sel.lane) ∧
      BufferOnly s t s.regs.sel.lane.bufferBytes

/-- R265, R266: neither SEL.BACKEND nor CAP nor the host's CPU changes what PERMUTE_SEL leaves in memory. -/
def Obligations.BackendChangesNoResultBit : Prop :=
  ∀ (s : State) (ns : BitVec 4) (b : Backend) (c : Cap) (arch : HostArch) (sha3 avx2 : Bool),
    s.regs.sel.valid = true → ns.toNat = s.regs.sel.lane.elems → s.ReadyFor s.regs.sel.lane →
    ∃ t t', exec (.permuteSel ns) s = .next t ∧
      exec (.permuteSel ns) ({ s with cap := c, host := { s.host with arch := arch, sha3 := sha3, avx2 := avx2 } }.setSel
        { s.regs.sel with backend := b }) = .next t' ∧
      t'.mem = t.mem

/-- R265: unpacking a packed state, running the ARM or the AVX2 kernel and packing the result back is the portable
permutation of the packed state. -/
def Obligations.KernelAdaptersArePortable : Prop :=
  (∀ (V : KState 64 2) (nr : Nat), nr ≤ 24 →
    let R := arm2 (unpackStates V)[0] (unpackStates V)[1] nr
    packStates #v[R.1, R.2] = permute 24 nr V) ∧
  (∀ (V : KState 64 4) (nr : Nat), nr ≤ 24 →
    let U := unpackStates V
    let R := avx4 U[0] U[1] U[2] U[3] nr
    packStates #v[R.1, R.2.1, R.2.2.1, R.2.2.2] = permute 24 nr V)

/-! ### Checks and aborts -/

/-- R303: the first failing row of the check table decides the outcome of a command word, and with no failing row the
command completes without an abort. These clauses are the model's: that row 7 holds while BASE is unwritten (assumption 5);
that row 9 stops with the faults stuckPastTop and stuckNotAdmitted, the top of memory first (assumption 10); the last row,
R73's refusal as the model's window of buffers decides it (assumption 9); that an abort answers a next state (assumption 4)
and leaves the working state alone (assumption 16). -/
def Obligations.FirstFailingCheckDecides : Prop :=
  ∀ (s : State) (v : Word),
    (∀ r, firstFailing s v = some r → runWord v s = r.outcome s) ∧
    (firstFailing s v = none → ∃ t, runWord v s = .next t ∧ t.regs.status = s.regs.status)

/-- R301, R305: a command that aborts records ABORTED and the code of its cause, the first failing check, in its thread's
STATUS; CMD holds the aborting word; BASE and every other register, CAP, every other thread and memory are unchanged. -/
def Obligations.AbortRecords : Prop :=
  ∀ (s t : State) (u : Nat) (v : Word) (rest : List HostEvent),
    s.pending = ⟨u, .writeReg 0 v.toNat⟩ :: rest → (s.regsOf u).status.aborted = false → step s = .next t →
    (t.regsOf u).status.aborted = true →
    (∃ code : AbortCode,
      firstFailing ((s.take ⟨u, .writeReg 0 v.toNat⟩ rest).setCmd v) v = some (.aborts code) ∧
      t.regsOf u = { s.regsOf u with cmd := v, status := ⟨true, code.bits⟩ }) ∧
    (∀ x, x ≠ u → t.regsOf x = s.regsOf x) ∧ t.cap = s.cap ∧ t.mem = s.mem ∧ t.host = s.host ∧ t.pending = rest

/-- R302, R306: the aborted block takes no command from any thread, is never in a final state, and keeps every thread's STATUS
under every action but reset, which ends the condition. -/
def Obligations.AbortIsTerminal : Prop :=
  ∀ s : State, s.Inv → s.anyAborted = true →
    (s.pending = [] → step s = .fault .abortedBlock) ∧
    (∀ u v rest, s.pending = ⟨u, .writeReg 0 v⟩ :: rest → step s = .fault .commandAfterAbort) ∧
    (∀ e rest t, s.pending = e :: rest → e.action ≠ .reset → step s = .next t →
      t.anyAborted = true ∧ ∀ u, (t.regsOf u).status = (s.regsOf u).status) ∧
    (∀ u rest, s.pending = ⟨u, .reset⟩ :: rest → ∃ t, step s = .next t ∧ t.anyAborted = false)

/-- R29, R30, R32, R33, R36: over all commands: no command writes CMD or BASE; only DISPATCH writes SEL, only PDEGREE
writes RESULT, only PROBE and DISPATCH write CAP, only an abort writes STATUS; no command touches another thread's
registers or the host parameters. -/
def Obligations.RegistersHaveTheirWriters : Prop :=
  ∀ (i : Instr) (s t : State), exec i s = .next t →
    t.regs.cmd = s.regs.cmd ∧ t.regs.base = s.regs.base ∧ t.regs.baseWritten = s.regs.baseWritten ∧
    (i.opcode ≠ .dispatch → t.regs.sel = s.regs.sel) ∧
    (i.opcode ≠ .pdegree → t.regs.result = s.regs.result) ∧
    (i.opcode ≠ .probe → i.opcode ≠ .dispatch → t.cap = s.cap) ∧
    (t.regs.status = s.regs.status ∨ ∃ code, t.regs = { s.regs with status := Status.ofAbort code }) ∧
    (∀ u, u ≠ s.cur → t.regsOf u = s.regsOf u) ∧ t.host = s.host

/-- R31, R260: once PROBED is 1, no step but a reset changes CAP; before, the only value a step can write is the host's
probe. No step changes the host parameters. -/
def Obligations.CapIsWriteOnce : Prop :=
  ∀ s t : State, step s = .next t → t.host = s.host ∧
    ((∀ e rest, s.pending = e :: rest → e.action ≠ .reset) → s.cap.probed = true → t.cap = s.cap) ∧
    (s.cap.probed = false → t.cap = s.cap ∨ t.cap = Cap.reset ∨
      t.cap = ⟨true, s.host.hasArmSha3, s.host.hasAvx2⟩)

/-- R73, R311: an action of one thread other than reset leaves the registers of every other thread alone. -/
def Obligations.ThreadsOwnTheirRegisters : Prop :=
  ∀ (s t : State) (e : HostEvent) (rest : List HostEvent), s.pending = e :: rest → e.action ≠ .reset →
    step s = .next t → ∀ u, u ≠ e.thread → t.regsOf u = s.regsOf u

/-- R67, R69: over all commands: a command writes no byte outside its buffer, and a command without a buffer, or one that
aborts, writes none. -/
def Obligations.CommandsWriteOnlyTheirBuffer : Prop :=
  ∀ (i : Instr) (s t : State), exec i s = .next t →
    (bufferOf s i = none → t.mem = s.mem) ∧
    (t.regs.status ≠ s.regs.status → t.mem = s.mem) ∧
    (∀ align size, bufferOf s i = some (align, size) →
      ∀ a, a < s.regs.base ∨ s.regs.base + size ≤ a → t.mem.byteAt a = s.mem.byteAt a)

/-- R67, R178: what a command leaves in its buffer depends on the bytes of the buffer alone: two memories that agree there
give buffers that agree. -/
def Obligations.CommandsReadOnlyTheirBuffer : Prop :=
  ∀ (i : Instr) (s t : State) (m : Memory) (align size : Nat), bufferOf s i = some (align, size) →
    (∀ a, s.regs.base ≤ a → a < s.regs.base + size → m.byteAt a = s.mem.byteAt a) → exec i s = .next t →
    ∃ t', exec i { s with mem := m } = .next t' ∧ t'.regs = t.regs ∧
      ∀ a, s.regs.base ≤ a → a < s.regs.base + size → t'.mem.byteAt a = t.mem.byteAt a

/-- R34: no rule reads the working state: a command's outcome is the same, but for the working state itself, whatever the
working state holds. -/
def Obligations.WorkingStateIsNeverRead : Prop :=
  ∀ (i : Instr) (s : State) (w : EngineWork) (n : Nat),
    forgetWork (exec i { s with work := w, freeCount := n }) = forgetWork (exec i s)

/-- R73: commands of different threads on disjoint buffers commute: where neither aborts, each completes after the other,
and both orders leave the same bytes and the same registers. On overlapping buffers, the command that comes second and passes
rows 1 to 9 of R303 is refused, and it would complete had the threads been ordered in between. The buffers that count are
those of the commands completed since the last join or reset, and no others. How threads are told apart, that the commands of
different threads run concurrently unless a join orders them, and that reset forgets them too, is the model's choice
(assumptions 8, 9 and 14). -/
def Obligations.DisjointCommandsCommute : Prop :=
  (∀ (s t₁ t₂ : State) (u v : Nat) (i j : Instr) (al₁ size₁ al₂ size₂ : Nat), u ≠ v →
    bufferOf (s.onThread u) i = some (al₁, size₁) → bufferOf (s.onThread v) j = some (al₂, size₂) →
    ((s.regsOf u).base + size₁ ≤ (s.regsOf v).base ∨ (s.regsOf v).base + size₂ ≤ (s.regsOf u).base) →
    exec i (s.onThread u) = .next t₁ → exec j (s.onThread v) = .next t₂ →
    t₁.anyAborted = false → t₂.anyAborted = false →
    ∃ t₁₂ t₂₁, exec j (t₁.onThread v) = .next t₁₂ ∧ exec i (t₂.onThread u) = .next t₂₁ ∧
      t₁₂.anyAborted = false ∧ t₂₁.anyAborted = false ∧
      (∀ a, t₁₂.mem.byteAt a = t₂₁.mem.byteAt a) ∧ (∀ x, t₁₂.regsOf x = t₂₁.regsOf x) ∧ t₁₂.cap = t₂₁.cap) ∧
  (∀ (s t : State) (u v : Nat) (i j : Instr) (al₁ size₁ al₂ size₂ : Nat), u ≠ v →
    bufferOf (s.onThread u) i = some (al₁, size₁) → exec i (s.onThread u) = .next t → t.anyAborted = false →
    bufferOf (t.onThread v) j = some (al₂, size₂) →
    (s.regsOf u).base < (s.regsOf v).base + size₂ → (s.regsOf v).base < (s.regsOf u).base + size₁ →
    j.wf = true → (∀ row ∈ (checkRows (t.onThread v) j).dropLast, row.1 = true) →
    exec j (t.onThread v) = .refused .overlappingBuffers ∧
    ∃ t', exec j ({ t with window := [] }.onThread v) = .next t' ∧ t'.anyAborted = false) ∧
  (∀ (s t : State) (e : HostEvent) (rest : List HostEvent), s.pending = e :: rest → step s = .next t →
    (e.action = .join ∨ e.action = .reset → t.window = []) ∧
    (e.action ≠ .join → e.action ≠ .reset → ∀ f ∈ s.window, f ∈ t.window) ∧
    ∀ f ∈ t.window, f ∈ s.window ∨ (f.thread = e.thread ∧ f.base = (s.regsOf e.thread).base ∧
      ∃ v i al, e.action = .writeReg 0 v ∧ decode (BitVec.ofNat 32 v) = .ok i ∧
        bufferOf (s.onThread e.thread) i = some (al, f.size)))

/-- R342: a reset and a new DISPATCH for the same lane type and round count on the same host give the same CAP and the
same SEL. -/
def Obligations.ReprobeGivesSameSelection : Prop :=
  ∀ s : State, s.Inv → s.regs.sel.valid = true →
    ∃ t, exec (.dispatch s.regs.sel.lane s.regs.sel.nr) s.resetBlock = .next t ∧ t.regs.sel = s.regs.sel ∧ t.cap = s.cap

/-- R137: IOTA is its own inverse: twice with the same RCI restores every byte of memory. -/
def Obligations.IotaTwiceRestoresMemory : Prop :=
  ∀ (s : State) (lt : LaneType) (ns : BitVec 4) (rci : BitVec 5), s.mem.wf = true → ns.toNat = lt.elems →
    rci.toNat < 24 → s.ReadyFor lt →
    ∃ t, runAll [.iota lt ns rci, .iota lt ns rci] s = .next t ∧ t.mem = s.mem

/-- R61: mixed-width views: the 64-bit lane at a reads the W8 lanes at a, …, a+7 as its bytes 0 to 7, least significant
first. -/
def Obligations.WideLaneReadsNarrowLanes : Prop :=
  ∀ (m : Memory) (a k i : Nat) (_ : k < 3) (_ : i < 8),
    ((loadState m a 64 1)[k][0]).extractLsb' (8 * i) 8 = (loadState m a 8 1)[8 * k + i][0]

/-- R72: the host's own store of a byte is what its next load of that byte, and a later command, reads; every other byte is
unchanged. That an access outside the address space of R60 faults, and that a load answers in readData, is the model's
choice (assumptions 20 and 21). -/
def Obligations.HostStoreThenLoad : Prop :=
  ∀ (s : State) (u x a : Nat) (b : Byte) (rest : List HostEvent),
    s.pending = ⟨u, .storeByte a b⟩ :: ⟨x, .loadByte a⟩ :: rest →
    (a < 2 ^ s.host.addrWidth → ∃ t t', step s = .next t ∧ step t = .next t' ∧ t'.readData = b.toNat ∧ t'.mem.byteAt a = b ∧
      (∀ y, y ≠ a → t'.mem.byteAt y = s.mem.byteAt y) ∧ t'.streams = s.streams ∧ t'.cap = s.cap) ∧
    (2 ^ s.host.addrWidth ≤ a → step s = .fault .noSuchAddress)
end

