-- ==== Sys2Proof/Laws/Sparse.lean ====
section
/-! SUPPORT. Laws/Sparse.lean: reading after writing, and the canonical form, of the total maps held as lists. -/

namespace Sys2Proof.Machine

variable {α : Type}

theorem Sparse.get_insert_self (d : α) (l : List (Nat × α)) (a : Nat) (v : α) :
    Sparse.get d (Sparse.insert l a v) a = v := by
  induction l with
  | nil => simp [Sparse.insert, Sparse.get]
  | cons e t ih =>
    obtain ⟨k, w⟩ := e
    simp only [Sparse.insert]
    split
    · simp [Sparse.get]
    · split
      · simp [Sparse.get]
      · rename_i h
        simp [Sparse.get, h, ih]

theorem Sparse.get_insert_ne (d : α) (l : List (Nat × α)) {a b : Nat} (v : α) (h : b ≠ a) :
    Sparse.get d (Sparse.insert l a v) b = Sparse.get d l b := by
  induction l with
  | nil => simp [Sparse.insert, Sparse.get, Ne.symm h]
  | cons e t ih =>
    obtain ⟨k, w⟩ := e
    simp only [Sparse.insert]
    split
    · simp [Sparse.get, Ne.symm h]
    · split
      · rename_i hk
        subst hk
        simp [Sparse.get, Ne.symm h]
      · simp [Sparse.get, ih]

theorem Sparse.get_filter_self (d : α) (l : List (Nat × α)) (a : Nat) :
    Sparse.get d (l.filter fun e => decide (e.1 ≠ a)) a = d := by
  induction l with
  | nil => rfl
  | cons e t ih =>
    obtain ⟨k, w⟩ := e
    by_cases h : k = a
    · simpa [h] using ih
    · simpa [h, Sparse.get] using ih

theorem Sparse.get_filter_ne (d : α) (l : List (Nat × α)) {a b : Nat} (h : b ≠ a) :
    Sparse.get d (l.filter fun e => decide (e.1 ≠ a)) b = Sparse.get d l b := by
  induction l with
  | nil => rfl
  | cons e t ih =>
    obtain ⟨k, w⟩ := e
    by_cases hk : k = a
    · subst hk
      simpa [Sparse.get, Ne.symm h] using ih
    · simp only [List.filter_cons, hk, ne_eq, not_false_eq_true, decide_true, if_true, Sparse.get]
      rw [ih]

/-- Reading the key just written gives the value written. -/
theorem Sparse.get_put_self [DecidableEq α] (d : α) (l : List (Nat × α)) (a : Nat) (v : α) :
    Sparse.get d (Sparse.put d l a v) a = v := by
  unfold Sparse.put
  split
  · rename_i h
    rw [Sparse.get_filter_self, h]
  · exact Sparse.get_insert_self d l a v

/-- A write leaves every other key alone. -/
theorem Sparse.get_put_ne [DecidableEq α] (d : α) (l : List (Nat × α)) {a b : Nat} (v : α) (h : b ≠ a) :
    Sparse.get d (Sparse.put d l a v) b = Sparse.get d l b := by
  unfold Sparse.put
  split
  · exact Sparse.get_filter_ne d l h
  · exact Sparse.get_insert_ne d l v h

/-! ### The canonical form -/

theorem Sparse.wfFrom_mono [DecidableEq α] (d : α) {lo lo' : Nat} {l : List (Nat × α)} (h : lo' ≤ lo)
    (hl : Sparse.wfFrom d lo l = true) : Sparse.wfFrom d lo' l = true := by
  cases l with
  | nil => rfl
  | cons e t =>
    simp only [Sparse.wfFrom, Bool.and_eq_true, decide_eq_true_eq] at hl ⊢
    exact ⟨⟨by omega, hl.1.2⟩, hl.2⟩

theorem Sparse.wfFrom_insert [DecidableEq α] (d : α) {v : α} (hv : v ≠ d) (a : Nat) :
    ∀ (l : List (Nat × α)) (lo : Nat), Sparse.wfFrom d lo l = true →
      Sparse.wfFrom d (min lo a) (Sparse.insert l a v) = true
  | [], lo, _ => by simp [Sparse.insert, Sparse.wfFrom, hv]
  | (k, w) :: t, lo, h => by
    simp only [Sparse.wfFrom, Bool.and_eq_true, decide_eq_true_eq] at h
    simp only [Sparse.insert]
    split
    · rename_i hak
      simp only [Sparse.wfFrom, Bool.and_eq_true, decide_eq_true_eq]
      exact ⟨⟨by omega, hv⟩, ⟨by omega, h.1.2⟩, h.2⟩
    · split
      · rename_i hka
        subst hka
        simp only [Sparse.wfFrom, Bool.and_eq_true, decide_eq_true_eq]
        exact ⟨⟨by omega, hv⟩, h.2⟩
      · simp only [Sparse.wfFrom, Bool.and_eq_true, decide_eq_true_eq]
        refine ⟨⟨by omega, h.1.2⟩, ?_⟩
        exact Sparse.wfFrom_mono d (by omega) (Sparse.wfFrom_insert d hv a t (k + 1) h.2)

theorem Sparse.wfFrom_filter [DecidableEq α] (d : α) (p : Nat × α → Bool) :
    ∀ (l : List (Nat × α)) (lo : Nat), Sparse.wfFrom d lo l = true → Sparse.wfFrom d lo (l.filter p) = true
  | [], _, _ => rfl
  | e :: t, lo, h => by
    simp only [Sparse.wfFrom, Bool.and_eq_true, decide_eq_true_eq] at h
    have ht := Sparse.wfFrom_filter d p t (e.1 + 1) h.2
    simp only [List.filter_cons]
    split
    · simp only [Sparse.wfFrom, Bool.and_eq_true, decide_eq_true_eq]
      exact ⟨h.1, ht⟩
    · exact Sparse.wfFrom_mono d (by omega) ht

/-- A write keeps the canonical form. -/
theorem Sparse.wf_put [DecidableEq α] (d : α) {l : List (Nat × α)} (h : Sparse.wf d l = true) (a : Nat) (v : α) :
    Sparse.wf d (Sparse.put d l a v) = true := by
  unfold Sparse.put Sparse.wf at *
  split
  · exact Sparse.wfFrom_filter d _ l 0 h
  · rename_i hv
    have := Sparse.wfFrom_insert d hv a l 0 h
    simpa using this

theorem Sparse.mem_insert {l : List (Nat × α)} {a : Nat} {v : α} {e : Nat × α} (h : e ∈ Sparse.insert l a v) :
    e = (a, v) ∨ e ∈ l := by
  induction l with
  | nil => simpa [Sparse.insert] using h
  | cons x t ih =>
    obtain ⟨k, w⟩ := x
    simp only [Sparse.insert] at h
    split at h
    · simpa using h
    · split at h
      · simp only [List.mem_cons] at h ⊢
        tauto
      · simp only [List.mem_cons] at h ⊢
        rcases h with h | h
        · exact .inr (.inl h)
        · rcases ih h with h | h
          · exact .inl h
          · exact .inr (.inr h)

/-- An entry after a write is the one written or was there before. -/
theorem Sparse.mem_put [DecidableEq α] {d : α} {l : List (Nat × α)} {a : Nat} {v : α} {e : Nat × α}
    (h : e ∈ Sparse.put d l a v) : e = (a, v) ∨ e ∈ l := by
  unfold Sparse.put at h
  split at h
  · exact .inr (List.mem_filter.mp h).1
  · exact Sparse.mem_insert h

theorem Sparse.get_of_lt [DecidableEq α] (d : α) :
    ∀ (l : List (Nat × α)) (lo : Nat), Sparse.wfFrom d lo l = true → ∀ a, a < lo → Sparse.get d l a = d
  | [], _, _, _, _ => rfl
  | (k, v) :: t, lo, h, a, ha => by
    simp only [Sparse.wfFrom, Bool.and_eq_true, decide_eq_true_eq] at h
    have hk : ¬ k = a := by omega
    simp only [Sparse.get, hk, if_false]
    exact Sparse.get_of_lt d t (k + 1) h.2 a (by omega)

theorem Sparse.ext_from [DecidableEq α] (d : α) :
    ∀ (l l' : List (Nat × α)) (lo lo' : Nat), Sparse.wfFrom d lo l = true → Sparse.wfFrom d lo' l' = true →
      (∀ a, Sparse.get d l a = Sparse.get d l' a) → l = l'
  | [], [], _, _, _, _, _ => rfl
  | [], (k, v) :: t, _, _, _, h', heq => by
    simp only [Sparse.wfFrom, Bool.and_eq_true, decide_eq_true_eq] at h'
    have := heq k
    simp only [Sparse.get, if_true] at this
    exact absurd this.symm h'.1.2
  | (k, v) :: t, [], _, _, h, _, heq => by
    simp only [Sparse.wfFrom, Bool.and_eq_true, decide_eq_true_eq] at h
    have := heq k
    simp only [Sparse.get, if_true] at this
    exact absurd this h.1.2
  | (k, v) :: t, (k', v') :: t', lo, lo', h, h', heq => by
    simp only [Sparse.wfFrom, Bool.and_eq_true, decide_eq_true_eq] at h h'
    have hk : k = k' := by
      rcases Nat.lt_trichotomy k k' with hlt | heq' | hgt
      · have hg := heq k
        have hn : ¬ k' = k := by omega
        simp only [Sparse.get, if_true, hn, if_false] at hg
        rw [Sparse.get_of_lt d t' (k' + 1) h'.2 k (by omega)] at hg
        exact absurd hg h.1.2
      · exact heq'
      · have hg := heq k'
        have hn : ¬ k = k' := by omega
        simp only [Sparse.get, if_true, hn, if_false] at hg
        rw [Sparse.get_of_lt d t (k + 1) h.2 k' (by omega)] at hg
        exact absurd hg.symm h'.1.2
    subst hk
    have hv : v = v' := by simpa [Sparse.get] using heq k
    subst hv
    have ht : t = t' := by
      refine Sparse.ext_from d t t' (k + 1) (k + 1) h.2 h'.2 fun a => ?_
      by_cases ha : k = a
      · subst ha
        rw [Sparse.get_of_lt d t (k + 1) h.2 k (by omega), Sparse.get_of_lt d t' (k + 1) h'.2 k (by omega)]
      · simpa [Sparse.get, ha] using heq a
    rw [ht]

/-- Equal maps in canonical form are equal data. -/
theorem Sparse.ext [DecidableEq α] (d : α) {l l' : List (Nat × α)} (h : Sparse.wf d l = true)
    (h' : Sparse.wf d l' = true) (heq : ∀ a, Sparse.get d l a = Sparse.get d l' a) : l = l' :=
  Sparse.ext_from d l l' 0 0 h h' heq

/-- Reading a key of a canonical map gives its entry's value. -/
theorem Sparse.get_of_mem [DecidableEq α] (d : α) :
    ∀ (l : List (Nat × α)) (lo : Nat), Sparse.wfFrom d lo l = true → ∀ e ∈ l, Sparse.get d l e.1 = e.2
  | [], _, _, _, he => absurd he (by simp)
  | (k, v) :: t, lo, h, e, he => by
    simp only [Sparse.wfFrom, Bool.and_eq_true, decide_eq_true_eq] at h
    rcases List.mem_cons.mp he with rfl | he'
    · simp [Sparse.get]
    · have ih := Sparse.get_of_mem d t (k + 1) h.2 e he'
      by_cases hk : k = e.1
      · exfalso
        have : ∀ (l : List (Nat × α)) (lo : Nat), Sparse.wfFrom d lo l = true → ∀ x ∈ l, lo ≤ x.1 := by
          intro l
          induction l with
          | nil => intro _ _ x hx; simp at hx
          | cons y ys ihy =>
            intro lo hl x hx
            simp only [Sparse.wfFrom, Bool.and_eq_true, decide_eq_true_eq] at hl
            rcases List.mem_cons.mp hx with rfl | hx'
            · exact hl.1.1
            · have := ihy (y.1 + 1) hl.2 x hx'
              omega
        have := this t (k + 1) h.2 e he'
        omega
      · simpa [Sparse.get, hk] using ih

end Sys2Proof.Machine
end

