-- ==== Sys2Proof/Laws/Memory.lean ====
section
/-! SUPPORT. Laws/Memory.lean: bytes, little-endian values and buffers: reading after writing, what a write leaves alone,
and the canonical form. -/

namespace Sys2Proof.Machine

/-! ### Bytes -/

theorem Memory.byteAt_setByte_self (m : Memory) (a : Nat) (b : Byte) : (m.setByte a b).byteAt a = b :=
  Sparse.get_put_self _ _ _ _

theorem Memory.byteAt_setByte_ne (m : Memory) {a x : Nat} (b : Byte) (h : x ≠ a) :
    (m.setByte a b).byteAt x = m.byteAt x :=
  Sparse.get_put_ne _ _ _ h

theorem Memory.wf_setByte {m : Memory} (h : m.wf = true) (a : Nat) (b : Byte) : (m.setByte a b).wf = true :=
  Sparse.wf_put _ h _ _

/-- Canonical memories that read alike are equal. -/
theorem Memory.ext {m m' : Memory} (h : m.wf = true) (h' : m'.wf = true) (heq : ∀ a, m.byteAt a = m'.byteAt a) :
    m = m' :=
  Sparse.ext _ h h' heq

/-! ### Little-endian values -/

/-- A read depends on its own bytes only. -/
theorem memRead_congr {m m' : Memory} : ∀ (n a : Nat), (∀ x, a ≤ x → x < a + n → m.byteAt x = m'.byteAt x) →
    memRead m a n = memRead m' a n
  | 0, _, _ => rfl
  | n + 1, a, h => by
    simp only [memRead]
    rw [h a (by omega) (by omega), memRead_congr n (a + 1) fun x h1 h2 => h x (by omega) (by omega)]

theorem memRead_lt (m : Memory) : ∀ (n a : Nat), memRead m a n < 256 ^ n
  | 0, _ => by simp [memRead]
  | n + 1, a => by
    have h := memRead_lt m n (a + 1)
    have hb : (m.byteAt a).toNat < 256 := (m.byteAt a).isLt
    simp only [memRead, Nat.pow_succ]
    omega

/-- A write leaves every byte outside its n bytes alone. -/
theorem memWrite_outside (m : Memory) : ∀ (n a v x : Nat), x < a ∨ a + n ≤ x →
    (memWrite m a n v).byteAt x = m.byteAt x
  | 0, _, _, _, _ => rfl
  | n + 1, a, v, x, h => by
    simp only [memWrite]
    rw [Memory.byteAt_setByte_ne _ _ (by omega), memWrite_outside m n (a + 1) (v / 256) x (by omega)]

/-- Byte i of a write holds bits 8i+7:8i of the value. -/
theorem memWrite_byte (m : Memory) : ∀ (n a v i : Nat), i < n →
    (memWrite m a n v).byteAt (a + i) = BitVec.ofNat 8 (v / 256 ^ i)
  | 0, _, _, _, h => absurd h (by omega)
  | n + 1, a, v, 0, _ => by simp [memWrite, Memory.byteAt_setByte_self]
  | n + 1, a, v, i + 1, h => by
    simp only [memWrite]
    rw [Memory.byteAt_setByte_ne _ _ (by omega), show a + (i + 1) = a + 1 + i by omega,
      memWrite_byte m n (a + 1) (v / 256) i (by omega), Nat.div_div_eq_div_mul, Nat.pow_succ, Nat.mul_comm]

theorem memRead_memWrite (m : Memory) : ∀ (n a v : Nat), memRead (memWrite m a n v) a n = v % 256 ^ n
  | 0, _, v => by simp [memRead, Nat.mod_one]
  | n + 1, a, v => by
    have hrest : memRead (memWrite m a (n + 1) v) (a + 1) n = v / 256 % 256 ^ n := by
      rw [← memRead_memWrite m n (a + 1) (v / 256)]
      refine memRead_congr n (a + 1) fun x h1 _ => ?_
      simp only [memWrite]
      exact Memory.byteAt_setByte_ne _ _ (by omega)
    have hfirst : (memWrite m a (n + 1) v).byteAt a = BitVec.ofNat 8 v := by
      simp [memWrite, Memory.byteAt_setByte_self]
    simp only [memRead, hrest, hfirst, BitVec.toNat_ofNat]
    rw [show 256 ^ (n + 1) = 256 * 256 ^ n from by rw [Nat.pow_succ, Nat.mul_comm], Nat.mod_mul]

theorem memRead_memWrite_ne (m : Memory) (n a v k b : Nat) (h : b + k ≤ a ∨ a + n ≤ b) :
    memRead (memWrite m a n v) b k = memRead m b k :=
  memRead_congr k b fun x h1 h2 => memWrite_outside m n a v x (by omega)

theorem wf_memWrite {m : Memory} (h : m.wf = true) : ∀ (n a v : Nat), (memWrite m a n v).wf = true
  | 0, _, _ => h
  | n + 1, a, v => Memory.wf_setByte (wf_memWrite h n (a + 1) (v / 256)) _ _

theorem mem_memWrite {m : Memory} {e : Host.Cell} : ∀ (n a v : Nat), e ∈ memWrite m a n v →
    (a ≤ e.1 ∧ e.1 < a + n) ∨ e ∈ m
  | 0, _, _, h => .inr h
  | n + 1, a, v, h => by
    rcases Sparse.mem_put h with rfl | h
    · exact .inl ⟨by simp, by simp⟩
    · rcases mem_memWrite n (a + 1) (v / 256) h with h | h
      · exact .inl (by omega)
      · exact .inr h

/-! ### Buffers -/

/-- A store of elements leaves every byte outside the buffer alone. -/
theorem storeElems_outside {w : Nat} (base : Nat) (elem : Nat → BitVec w) : ∀ (count : Nat) (m : Memory) (x : Nat),
    x < base ∨ base + w / 8 * count ≤ x → (storeElems m base count elem).byteAt x = m.byteAt x
  | 0, _, _, _ => rfl
  | i + 1, m, x, h => by
    have he : w / 8 * (i + 1) = w / 8 * i + w / 8 := by rw [Nat.mul_succ]
    simp only [storeElems]
    rw [storeElems_outside base elem i _ x (by omega), memWrite_outside m _ _ _ x (by omega)]

theorem wf_storeElems {w : Nat} (base : Nat) (elem : Nat → BitVec w) : ∀ (count : Nat) (m : Memory), m.wf = true →
    (storeElems m base count elem).wf = true
  | 0, _, h => h
  | i + 1, _, h => wf_storeElems base elem i _ (wf_memWrite h _ _ _)

theorem mem_storeElems {w : Nat} {base : Nat} {elem : Nat → BitVec w} {e : Host.Cell} : ∀ (count : Nat) (m : Memory),
    e ∈ storeElems m base count elem → (base ≤ e.1 ∧ e.1 < base + w / 8 * count) ∨ e ∈ m
  | 0, _, h => .inr h
  | i + 1, _, h => by
    have he : w / 8 * (i + 1) = w / 8 * i + w / 8 := by rw [Nat.mul_succ]
    rcases mem_storeElems i _ h with h | h
    · exact .inl (by omega)
    · rcases mem_memWrite _ _ _ h with h | h
      · exact .inl (by omega)
      · exact .inr h

theorem loadElem_memWrite_ne {w : Nat} (m : Memory) (base i j v : Nat) (h : i ≠ j) :
    loadElem (memWrite m (base + w / 8 * j) (w / 8) v) base w i = loadElem m base w i := by
  unfold loadElem
  rw [memRead_memWrite_ne]
  rcases Nat.lt_or_gt_of_ne h with hlt | hgt
  · have : w / 8 * (i + 1) ≤ w / 8 * j := Nat.mul_le_mul_left _ hlt
    rw [Nat.mul_succ] at this
    omega
  · have : w / 8 * (j + 1) ≤ w / 8 * i := Nat.mul_le_mul_left _ hgt
    rw [Nat.mul_succ] at this
    omega

/-- Elements from `count` on are not stored to. -/
theorem loadElem_storeElems_ge {w : Nat} (base : Nat) (elem : Nat → BitVec w) : ∀ (count : Nat) (m : Memory) (j : Nat),
    count ≤ j → loadElem (storeElems m base count elem) base w j = loadElem m base w j
  | 0, _, _, _ => rfl
  | i + 1, m, j, h => by
    simp only [storeElems]
    rw [loadElem_storeElems_ge base elem i _ j (by omega), loadElem_memWrite_ne m base j i _ (by omega)]

/-- Loading a stored element gives it back, for an element of whole bytes. -/
theorem loadElem_storeElems {w : Nat} (hw : 8 * (w / 8) = w) (base : Nat) (elem : Nat → BitVec w) :
    ∀ (count : Nat) (m : Memory) (j : Nat), j < count →
      loadElem (storeElems m base count elem) base w j = elem j
  | 0, _, _, h => absurd h (by omega)
  | i + 1, m, j, h => by
    simp only [storeElems]
    by_cases hj : j < i
    · exact loadElem_storeElems hw base elem i _ j hj
    · have hji : j = i := by omega
      subst hji
      rw [loadElem_storeElems_ge base elem j _ j (le_refl _)]
      unfold loadElem
      rw [memRead_memWrite]
      apply BitVec.eq_of_toNat_eq
      have hp : (256 : Nat) ^ (w / 8) = 2 ^ w := by
        rw [show (256 : Nat) = 2 ^ 8 by norm_num, ← Nat.pow_mul, hw]
      rw [hp, BitVec.toNat_ofNat, Nat.mod_mod, Nat.mod_eq_of_lt (elem j).isLt]

/-- An element's load depends on the element's own bytes only. -/
theorem loadElem_congr {m m' : Memory} (base w i count : Nat) (hi : i < count)
    (h : ∀ x, base ≤ x → x < base + w / 8 * count → m.byteAt x = m'.byteAt x) :
    loadElem m base w i = loadElem m' base w i := by
  unfold loadElem
  have hle : w / 8 * (i + 1) ≤ w / 8 * count := Nat.mul_le_mul_left _ hi
  rw [Nat.mul_succ] at hle
  rw [memRead_congr (w / 8) (base + w / 8 * i) fun x h1 h2 => h x (by omega) (by omega)]

/-! ### States in buffers -/

theorem loadState_get (m : Memory) (base w n k j : Nat) (hk : k < 25) (hj : j < n) :
    (loadState m base w n)[k][j] = loadElem m base w (n * k + j) := by
  simp [loadState]

theorem loadStates_get (m : Memory) (base n k j : Nat) (hk : k < 25) (hj : j < n) :
    (loadStates m base n)[j][k][0] = loadElem m base 64 (25 * j + k) := by
  simp [loadStates]

theorem elemAt_get {w n : Nat} (S : KState w n) {k j : Nat} (hk : k < 25) (hj : j < n) : elemAt S k j = S[k][j] := by
  simp [elemAt, hk, hj]

/-- Loading a stored state gives it back. -/
theorem loadState_storeState {w n : Nat} (hw : 8 * (w / 8) = w) (m : Memory) (base : Nat) (S : KState w n) :
    loadState (storeState m base S) base w n = S := by
  ext k hk j hj : 2
  have hn : 0 < n := by omega
  have hlt : n * k + j < 25 * n := by
    have : n * (k + 1) ≤ n * 25 := Nat.mul_le_mul_left _ hk
    rw [Nat.mul_succ] at this
    omega
  rw [loadState_get _ _ _ _ _ _ hk hj, storeState, loadElem_storeElems hw _ _ _ _ _ hlt]
  rw [Nat.mul_add_div hn, Nat.div_eq_of_lt hj, Nat.mul_add_mod, Nat.mod_eq_of_lt hj, Nat.add_zero, elemAt_get S hk hj]

/-- Loading stored states gives them back. -/
theorem loadStates_storeStates {n : Nat} (m : Memory) (base : Nat) (T : KStates n) :
    loadStates (storeStates m base T) base n = T := by
  ext j hj k hk i hi : 3
  have hi0 : i = 0 := by omega
  subst hi0
  have hlt : 25 * j + k < 25 * n := by omega
  rw [loadStates_get _ _ _ _ _ hk hj, storeStates, loadElem_storeElems (by norm_num) _ _ _ _ _ hlt]
  have h1 : (25 * j + k) / 25 = j := by omega
  have h2 : (25 * j + k) % 25 = k := by omega
  simp only [h1, h2, hj, dif_pos]
  rw [elemAt_get _ hk (by omega)]

theorem storeState_outside {w n : Nat} (m : Memory) (base : Nat) (S : KState w n) (x : Nat)
    (h : x < base ∨ base + 25 * (n * (w / 8)) ≤ x) : (storeState m base S).byteAt x = m.byteAt x := by
  refine storeElems_outside base _ _ m x ?_
  rcases h with h | h
  · exact .inl h
  · right
    calc base + w / 8 * (25 * n) = base + 25 * (n * (w / 8)) := by ring
      _ ≤ x := h

theorem storeStates_outside {n : Nat} (m : Memory) (base : Nat) (T : KStates n) (x : Nat)
    (h : x < base ∨ base + 200 * n ≤ x) : (storeStates m base T).byteAt x = m.byteAt x := by
  refine storeElems_outside base _ _ m x ?_
  rcases h with h | h
  · exact .inl h
  · right
    have : 64 / 8 * (25 * n) = 200 * n := by omega
    omega

theorem wf_storeState {w n : Nat} {m : Memory} (h : m.wf = true) (base : Nat) (S : KState w n) :
    (storeState m base S).wf = true := wf_storeElems base _ _ m h

theorem wf_storeStates {n : Nat} {m : Memory} (h : m.wf = true) (base : Nat) (T : KStates n) :
    (storeStates m base T).wf = true := wf_storeElems base _ _ m h

/-- A state's load depends on the bytes of its buffer only. -/
theorem loadState_congr {m m' : Memory} (base w n : Nat)
    (h : ∀ x, base ≤ x → x < base + 25 * (n * (w / 8)) → m.byteAt x = m'.byteAt x) :
    loadState m base w n = loadState m' base w n := by
  ext k hk j hj : 2
  have hlt : n * k + j < 25 * n := by
    have : n * (k + 1) ≤ n * 25 := Nat.mul_le_mul_left _ hk
    rw [Nat.mul_succ] at this
    omega
  rw [loadState_get _ _ _ _ _ _ hk hj, loadState_get _ _ _ _ _ _ hk hj]
  have he : w / 8 * (25 * n) = 25 * (n * (w / 8)) := by ring
  rw [loadElem_congr base w _ (25 * n) hlt fun x h1 h2 => h x h1 (by omega)]

theorem loadStates_congr {m m' : Memory} (base n : Nat)
    (h : ∀ x, base ≤ x → x < base + 200 * n → m.byteAt x = m'.byteAt x) :
    loadStates m base n = loadStates m' base n := by
  ext j hj k hk i hi : 3
  have hi0 : i = 0 := by omega
  subst hi0
  rw [loadStates_get _ _ _ _ _ hk hj, loadStates_get _ _ _ _ _ hk hj]
  rw [loadElem_congr base 64 _ (25 * n) (by omega) fun x h1 h2 => h x h1 (by omega)]

/-- The element widths are whole bytes. -/
theorem LaneType_width_bytes (lt : LaneType) : 8 * (lt.width / 8) = lt.width := by cases lt <;> rfl

end Sys2Proof.Machine
end

