-- ==== Sys2Proof/Laws/State.lean ====
section
/-! SUPPORT. Laws/State.lean: what each update of the state leaves in each field, and the registers after it. -/

namespace Sys2Proof.Machine

/-! ### Fields under each update -/

@[simp] theorem State.setRegs_host (s : State) (r : StreamRegs) : (s.setRegs r).host = s.host := rfl
@[simp] theorem State.setRegs_cap (s : State) (r : StreamRegs) : (s.setRegs r).cap = s.cap := rfl
@[simp] theorem State.setRegs_mem (s : State) (r : StreamRegs) : (s.setRegs r).mem = s.mem := rfl
@[simp] theorem State.setRegs_work (s : State) (r : StreamRegs) : (s.setRegs r).work = s.work := rfl
@[simp] theorem State.setRegs_cur (s : State) (r : StreamRegs) : (s.setRegs r).cur = s.cur := rfl
@[simp] theorem State.setRegs_pending (s : State) (r : StreamRegs) : (s.setRegs r).pending = s.pending := rfl
@[simp] theorem State.setRegs_window (s : State) (r : StreamRegs) : (s.setRegs r).window = s.window := rfl
@[simp] theorem State.setRegs_readData (s : State) (r : StreamRegs) : (s.setRegs r).readData = s.readData := rfl
@[simp] theorem State.setRegs_freeCount (s : State) (r : StreamRegs) : (s.setRegs r).freeCount = s.freeCount := rfl

@[simp] theorem State.setCmd_host (s : State) (v : Word) : (s.setCmd v).host = s.host := rfl
@[simp] theorem State.setCmd_cap (s : State) (v : Word) : (s.setCmd v).cap = s.cap := rfl
@[simp] theorem State.setCmd_mem (s : State) (v : Word) : (s.setCmd v).mem = s.mem := rfl
@[simp] theorem State.setCmd_work (s : State) (v : Word) : (s.setCmd v).work = s.work := rfl
@[simp] theorem State.setCmd_cur (s : State) (v : Word) : (s.setCmd v).cur = s.cur := rfl
@[simp] theorem State.setCmd_pending (s : State) (v : Word) : (s.setCmd v).pending = s.pending := rfl
@[simp] theorem State.setCmd_window (s : State) (v : Word) : (s.setCmd v).window = s.window := rfl
@[simp] theorem State.setCmd_readData (s : State) (v : Word) : (s.setCmd v).readData = s.readData := rfl
@[simp] theorem State.setCmd_freeCount (s : State) (v : Word) : (s.setCmd v).freeCount = s.freeCount := rfl

@[simp] theorem State.setBase_host (s : State) (a : Nat) : (s.setBase a).host = s.host := rfl
@[simp] theorem State.setBase_cap (s : State) (a : Nat) : (s.setBase a).cap = s.cap := rfl
@[simp] theorem State.setBase_mem (s : State) (a : Nat) : (s.setBase a).mem = s.mem := rfl
@[simp] theorem State.setBase_work (s : State) (a : Nat) : (s.setBase a).work = s.work := rfl
@[simp] theorem State.setBase_cur (s : State) (a : Nat) : (s.setBase a).cur = s.cur := rfl
@[simp] theorem State.setBase_pending (s : State) (a : Nat) : (s.setBase a).pending = s.pending := rfl
@[simp] theorem State.setBase_window (s : State) (a : Nat) : (s.setBase a).window = s.window := rfl
@[simp] theorem State.setBase_readData (s : State) (a : Nat) : (s.setBase a).readData = s.readData := rfl
@[simp] theorem State.setBase_freeCount (s : State) (a : Nat) : (s.setBase a).freeCount = s.freeCount := rfl

@[simp] theorem State.setSel_host (s : State) (x : Sel) : (s.setSel x).host = s.host := rfl
@[simp] theorem State.setSel_cap (s : State) (x : Sel) : (s.setSel x).cap = s.cap := rfl
@[simp] theorem State.setSel_mem (s : State) (x : Sel) : (s.setSel x).mem = s.mem := rfl
@[simp] theorem State.setSel_work (s : State) (x : Sel) : (s.setSel x).work = s.work := rfl
@[simp] theorem State.setSel_cur (s : State) (x : Sel) : (s.setSel x).cur = s.cur := rfl
@[simp] theorem State.setSel_pending (s : State) (x : Sel) : (s.setSel x).pending = s.pending := rfl
@[simp] theorem State.setSel_window (s : State) (x : Sel) : (s.setSel x).window = s.window := rfl
@[simp] theorem State.setSel_readData (s : State) (x : Sel) : (s.setSel x).readData = s.readData := rfl
@[simp] theorem State.setSel_freeCount (s : State) (x : Sel) : (s.setSel x).freeCount = s.freeCount := rfl

@[simp] theorem State.setResult_host (s : State) (v : Word) : (s.setResult v).host = s.host := rfl
@[simp] theorem State.setResult_cap (s : State) (v : Word) : (s.setResult v).cap = s.cap := rfl
@[simp] theorem State.setResult_mem (s : State) (v : Word) : (s.setResult v).mem = s.mem := rfl
@[simp] theorem State.setResult_work (s : State) (v : Word) : (s.setResult v).work = s.work := rfl
@[simp] theorem State.setResult_cur (s : State) (v : Word) : (s.setResult v).cur = s.cur := rfl
@[simp] theorem State.setResult_pending (s : State) (v : Word) : (s.setResult v).pending = s.pending := rfl
@[simp] theorem State.setResult_window (s : State) (v : Word) : (s.setResult v).window = s.window := rfl
@[simp] theorem State.setResult_readData (s : State) (v : Word) : (s.setResult v).readData = s.readData := rfl
@[simp] theorem State.setResult_freeCount (s : State) (v : Word) : (s.setResult v).freeCount = s.freeCount := rfl

@[simp] theorem State.takeAbort_host (s : State) (c : AbortCode) : (s.takeAbort c).host = s.host := rfl
@[simp] theorem State.takeAbort_cap (s : State) (c : AbortCode) : (s.takeAbort c).cap = s.cap := rfl
@[simp] theorem State.takeAbort_mem (s : State) (c : AbortCode) : (s.takeAbort c).mem = s.mem := rfl
@[simp] theorem State.takeAbort_work (s : State) (c : AbortCode) : (s.takeAbort c).work = s.work := rfl
@[simp] theorem State.takeAbort_cur (s : State) (c : AbortCode) : (s.takeAbort c).cur = s.cur := rfl
@[simp] theorem State.takeAbort_pending (s : State) (c : AbortCode) : (s.takeAbort c).pending = s.pending := rfl
@[simp] theorem State.takeAbort_window (s : State) (c : AbortCode) : (s.takeAbort c).window = s.window := rfl
@[simp] theorem State.takeAbort_readData (s : State) (c : AbortCode) : (s.takeAbort c).readData = s.readData := rfl
@[simp] theorem State.takeAbort_freeCount (s : State) (c : AbortCode) : (s.takeAbort c).freeCount = s.freeCount := rfl

@[simp] theorem State.scrambleWork_host (s : State) : (s.scrambleWork).host = s.host := rfl
@[simp] theorem State.scrambleWork_cap (s : State) : (s.scrambleWork).cap = s.cap := rfl
@[simp] theorem State.scrambleWork_streams (s : State) : (s.scrambleWork).streams = s.streams := rfl
@[simp] theorem State.scrambleWork_mem (s : State) : (s.scrambleWork).mem = s.mem := rfl
@[simp] theorem State.scrambleWork_work (s : State) : (s.scrambleWork).work = Config.freeWork s.freeCount := rfl
@[simp] theorem State.scrambleWork_cur (s : State) : (s.scrambleWork).cur = s.cur := rfl
@[simp] theorem State.scrambleWork_pending (s : State) : (s.scrambleWork).pending = s.pending := rfl
@[simp] theorem State.scrambleWork_window (s : State) : (s.scrambleWork).window = s.window := rfl
@[simp] theorem State.scrambleWork_readData (s : State) : (s.scrambleWork).readData = s.readData := rfl
@[simp] theorem State.scrambleWork_freeCount (s : State) : (s.scrambleWork).freeCount = s.freeCount + 1 := rfl

@[simp] theorem State.noteBuffer_host (s : State) (base size : Nat) : (s.noteBuffer base size).host = s.host := rfl
@[simp] theorem State.noteBuffer_cap (s : State) (base size : Nat) : (s.noteBuffer base size).cap = s.cap := rfl
@[simp] theorem State.noteBuffer_streams (s : State) (base size : Nat) : (s.noteBuffer base size).streams = s.streams := rfl
@[simp] theorem State.noteBuffer_mem (s : State) (base size : Nat) : (s.noteBuffer base size).mem = s.mem := rfl
@[simp] theorem State.noteBuffer_work (s : State) (base size : Nat) : (s.noteBuffer base size).work = s.work := rfl
@[simp] theorem State.noteBuffer_cur (s : State) (base size : Nat) : (s.noteBuffer base size).cur = s.cur := rfl
@[simp] theorem State.noteBuffer_pending (s : State) (base size : Nat) : (s.noteBuffer base size).pending = s.pending := rfl
@[simp] theorem State.noteBuffer_readData (s : State) (base size : Nat) : (s.noteBuffer base size).readData = s.readData := rfl
@[simp] theorem State.noteBuffer_freeCount (s : State) (base size : Nat) : (s.noteBuffer base size).freeCount = s.freeCount := rfl

@[simp] theorem State.commit_host (s : State) (base size : Nat) (m : Memory) : (s.commit base size m).host = s.host := rfl
@[simp] theorem State.commit_cap (s : State) (base size : Nat) (m : Memory) : (s.commit base size m).cap = s.cap := rfl
@[simp] theorem State.commit_streams (s : State) (base size : Nat) (m : Memory) : (s.commit base size m).streams = s.streams := rfl
@[simp] theorem State.commit_mem (s : State) (base size : Nat) (m : Memory) : (s.commit base size m).mem = m := rfl
@[simp] theorem State.commit_work (s : State) (base size : Nat) (m : Memory) : (s.commit base size m).work = Config.freeWork s.freeCount := rfl
@[simp] theorem State.commit_cur (s : State) (base size : Nat) (m : Memory) : (s.commit base size m).cur = s.cur := rfl
@[simp] theorem State.commit_pending (s : State) (base size : Nat) (m : Memory) : (s.commit base size m).pending = s.pending := rfl
@[simp] theorem State.commit_readData (s : State) (base size : Nat) (m : Memory) : (s.commit base size m).readData = s.readData := rfl
@[simp] theorem State.commit_freeCount (s : State) (base size : Nat) (m : Memory) : (s.commit base size m).freeCount = s.freeCount + 1 := rfl

@[simp] theorem State.probe_host (s : State) : (s.probe).host = s.host := rfl
@[simp] theorem State.probe_streams (s : State) : (s.probe).streams = s.streams := rfl
@[simp] theorem State.probe_mem (s : State) : (s.probe).mem = s.mem := rfl
@[simp] theorem State.probe_work (s : State) : (s.probe).work = s.work := rfl
@[simp] theorem State.probe_cur (s : State) : (s.probe).cur = s.cur := rfl
@[simp] theorem State.probe_pending (s : State) : (s.probe).pending = s.pending := rfl
@[simp] theorem State.probe_window (s : State) : (s.probe).window = s.window := rfl
@[simp] theorem State.probe_readData (s : State) : (s.probe).readData = s.readData := rfl
@[simp] theorem State.probe_freeCount (s : State) : (s.probe).freeCount = s.freeCount := rfl

@[simp] theorem State.take_host (s : State) (e : HostEvent) (rest : List HostEvent) : (s.take e rest).host = s.host := rfl
@[simp] theorem State.take_cap (s : State) (e : HostEvent) (rest : List HostEvent) : (s.take e rest).cap = s.cap := rfl
@[simp] theorem State.take_streams (s : State) (e : HostEvent) (rest : List HostEvent) : (s.take e rest).streams = s.streams := rfl
@[simp] theorem State.take_mem (s : State) (e : HostEvent) (rest : List HostEvent) : (s.take e rest).mem = s.mem := rfl
@[simp] theorem State.take_work (s : State) (e : HostEvent) (rest : List HostEvent) : (s.take e rest).work = s.work := rfl
@[simp] theorem State.take_cur (s : State) (e : HostEvent) (rest : List HostEvent) : (s.take e rest).cur = e.thread := rfl
@[simp] theorem State.take_pending (s : State) (e : HostEvent) (rest : List HostEvent) : (s.take e rest).pending = rest := rfl
@[simp] theorem State.take_window (s : State) (e : HostEvent) (rest : List HostEvent) : (s.take e rest).window = s.window := rfl
@[simp] theorem State.take_readData (s : State) (e : HostEvent) (rest : List HostEvent) : (s.take e rest).readData = s.readData := rfl
@[simp] theorem State.take_freeCount (s : State) (e : HostEvent) (rest : List HostEvent) : (s.take e rest).freeCount = s.freeCount := rfl

@[simp] theorem State.resetBlock_host (s : State) : (s.resetBlock).host = s.host := rfl
@[simp] theorem State.resetBlock_cap (s : State) : (s.resetBlock).cap = Cap.reset := rfl
@[simp] theorem State.resetBlock_streams (s : State) : (s.resetBlock).streams = [] := rfl
@[simp] theorem State.resetBlock_mem (s : State) : (s.resetBlock).mem = s.mem := rfl
@[simp] theorem State.resetBlock_work (s : State) : (s.resetBlock).work = Config.freeWork s.freeCount := rfl
@[simp] theorem State.resetBlock_cur (s : State) : (s.resetBlock).cur = s.cur := rfl
@[simp] theorem State.resetBlock_pending (s : State) : (s.resetBlock).pending = s.pending := rfl
@[simp] theorem State.resetBlock_window (s : State) : (s.resetBlock).window = [] := rfl
@[simp] theorem State.resetBlock_readData (s : State) : (s.resetBlock).readData = s.readData := rfl
@[simp] theorem State.resetBlock_freeCount (s : State) : (s.resetBlock).freeCount = s.freeCount + 1 := rfl

/-! ### Registers under each update -/

@[simp] theorem State.setRegs_regs (s : State) (r : StreamRegs) : (s.setRegs r).regs = r :=
  Sparse.get_put_self _ _ _ _

theorem State.setRegs_regsOf (s : State) (r : StreamRegs) (t : Nat) :
    (s.setRegs r).regsOf t = if t = s.cur then r else s.regsOf t := by
  by_cases h : t = s.cur
  · subst h
    rw [if_pos rfl]
    exact Sparse.get_put_self StreamRegs.reset s.streams s.cur r
  · rw [if_neg h]
    exact Sparse.get_put_ne StreamRegs.reset s.streams r h

/-- An update of the running thread's registers leaves every other thread's alone. -/
theorem State.setRegs_regsOf_ne (s : State) (r : StreamRegs) {t : Nat} (h : t ≠ s.cur) :
    (s.setRegs r).regsOf t = s.regsOf t := by simp [State.setRegs_regsOf, h]

@[simp] theorem State.setCmd_regs (s : State) (v : Word) : (s.setCmd v).regs = { s.regs with cmd := v } :=
  State.setRegs_regs _ _

@[simp] theorem State.setBase_regs (s : State) (a : Nat) :
    (s.setBase a).regs = { s.regs with base := a % 2 ^ s.host.addrWidth, baseWritten := true } :=
  State.setRegs_regs _ _

@[simp] theorem State.setSel_regs (s : State) (x : Sel) : (s.setSel x).regs = { s.regs with sel := x } :=
  State.setRegs_regs _ _

@[simp] theorem State.setResult_regs (s : State) (v : Word) : (s.setResult v).regs = { s.regs with result := v } :=
  State.setRegs_regs _ _

@[simp] theorem State.takeAbort_regs (s : State) (c : AbortCode) :
    (s.takeAbort c).regs = { s.regs with status := Status.ofAbort c } :=
  State.setRegs_regs _ _

@[simp] theorem State.scrambleWork_regsOf (s : State) (t : Nat) : s.scrambleWork.regsOf t = s.regsOf t := rfl
@[simp] theorem State.scrambleWork_regs (s : State) : s.scrambleWork.regs = s.regs := rfl
@[simp] theorem State.commit_regsOf (s : State) (base size : Nat) (m : Memory) (t : Nat) :
    (s.commit base size m).regsOf t = s.regsOf t := rfl
@[simp] theorem State.commit_regs (s : State) (base size : Nat) (m : Memory) : (s.commit base size m).regs = s.regs := rfl
@[simp] theorem State.probe_regsOf (s : State) (t : Nat) : s.probe.regsOf t = s.regsOf t := rfl
@[simp] theorem State.probe_regs (s : State) : s.probe.regs = s.regs := rfl
@[simp] theorem State.take_regsOf (s : State) (e : HostEvent) (rest : List HostEvent) (t : Nat) :
    (s.take e rest).regsOf t = s.regsOf t := rfl
@[simp] theorem State.take_regs (s : State) (e : HostEvent) (rest : List HostEvent) :
    (s.take e rest).regs = s.regsOf e.thread := rfl
@[simp] theorem State.resetBlock_regsOf (s : State) (t : Nat) : s.resetBlock.regsOf t = StreamRegs.reset := rfl
@[simp] theorem State.resetBlock_regs (s : State) : s.resetBlock.regs = StreamRegs.reset := rfl
@[simp] theorem State.resetOn_regsOf (h : HostParams) (m : Memory) (t : Nat) :
    (State.resetOn h m).regsOf t = StreamRegs.reset := rfl

/-- After an abort the block is in the aborted condition. -/
theorem State.takeAbort_anyAborted (s : State) (c : AbortCode) : (s.takeAbort c).anyAborted = true := by
  have hne : ({ s.regs with status := Status.ofAbort c } : StreamRegs) ≠ StreamRegs.reset := by
    intro h
    have := congrArg (fun r => r.status.aborted) h
    simp [Status.ofAbort, StreamRegs.reset] at this
  have hin : ∀ l : List (Nat × StreamRegs), (s.cur, { s.regs with status := Status.ofAbort c }) ∈
      Sparse.insert l s.cur { s.regs with status := Status.ofAbort c } := by
    intro l
    induction l with
    | nil => simp [Sparse.insert]
    | cons e t ih =>
      obtain ⟨k, w⟩ := e
      simp only [Sparse.insert]
      split
      · simp
      · split
        · simp
        · simp [ih]
  unfold State.anyAborted State.takeAbort State.setRegs Sparse.put
  simp only [hne, if_false, List.any_eq_true]
  exact ⟨_, hin _, by simp [Status.ofAbort]⟩

@[simp] theorem State.resetBlock_anyAborted (s : State) : s.resetBlock.anyAborted = false := rfl

/-- In a canonical state the block is in the aborted condition exactly when some thread's STATUS.ABORTED is 1. -/
theorem State.anyAborted_iff (s : State) (h : Sparse.wf StreamRegs.reset s.streams = true) :
    s.anyAborted = true ↔ ∃ t, (s.regsOf t).status.aborted = true := by
  constructor
  · intro ha
    obtain ⟨e, he, hs⟩ := List.any_eq_true.mp ha
    refine ⟨e.1, ?_⟩
    rw [State.regsOf, Sparse.get_of_mem StreamRegs.reset s.streams 0 h e he]
    exact hs
  · rintro ⟨t, ht⟩
    have key : ∀ l : List (Nat × StreamRegs), (Sparse.get StreamRegs.reset l t).status.aborted = true →
        (l.any fun e => e.2.status.aborted) = true := by
      intro l
      induction l with
      | nil => intro h0; simp [Sparse.get, StreamRegs.reset] at h0
      | cons e u ih =>
        obtain ⟨k, w⟩ := e
        intro h0
        by_cases hk : k = t
        · simp only [Sparse.get, hk, if_true] at h0
          simp [h0]
        · simp only [Sparse.get, hk, if_false] at h0
          simp only [List.any_cons, ih h0, Bool.or_true]
    exact key s.streams ht

end Sys2Proof.Machine
end

