-- ==== Sys2Proof/Laws/Ops.lean ====
section
/-! SUPPORT. Laws/Ops.lean: what the shared operations can do: a precondition check, a memory command, and, over all
commands, what exec can answer. -/

namespace Sys2Proof.Machine

theorem require_true (code : AbortCode) (s : State) (k : Out) : require true code s k = k := rfl

theorem require_false (code : AbortCode) (s : State) (k : Out) : require false code s k = .next (s.takeAbort code) := rfl

theorem require_of {c : Bool} (h : c = true) (code : AbortCode) (s : State) (k : Out) : require c code s k = k := by
  rw [h, require_true]

/-- What a precondition check can answer: the command went on, or it aborted with the check's code. -/
theorem require_next {c : Bool} {code : AbortCode} {s t : State} {k : Out} (h : require c code s k = .next t) :
    (c = true ∧ k = .next t) ∨ (c = false ∧ t = s.takeAbort code) := by
  cases c
  · right
    simp only [require_false, Host.Outcome.next.injEq] at h
    exact ⟨rfl, h.symm⟩
  · exact .inl ⟨rfl, h⟩

/-- The buffers on record after one more is noted: that one, and those there were. -/
@[simp] theorem State.mem_noteBuffer_window (s : State) (base size : Nat) (f : Footprint) :
    f ∈ (s.noteBuffer base size).window ↔ f = ⟨s.cur, base, size⟩ ∨ f ∈ s.window := by
  unfold State.noteBuffer
  by_cases h : s.window.contains ⟨s.cur, base, size⟩ = true
  · rw [if_pos h]
    exact ⟨.inr, fun hf => hf.elim (fun he => he ▸ List.contains_iff_mem.mp h) id⟩
  · rw [if_neg h, List.mem_cons]

/-- A completed memory command is on record (R73). -/
@[simp] theorem State.mem_commit_window (s : State) (base size : Nat) (m : Memory) (f : Footprint) :
    f ∈ (s.commit base size m).window ↔ f = ⟨s.cur, base, size⟩ ∨ f ∈ s.window :=
  State.mem_noteBuffer_window { s with mem := m } base size f

/-- A buffer overlaps what another thread has on record. -/
theorem State.overlaps_iff (s : State) (base size : Nat) : s.overlaps base size = true ↔
    ∃ f ∈ s.window, f.thread ≠ s.cur ∧ f.base < base + size ∧ base < f.base + f.size := by
  simp [State.overlaps]

/-- A memory command whose checks hold loads, computes, stores and completes. -/
theorem onBuffer_ready {align size : Nat} {s : State} (h : s.Ready align size) (compute : Nat → Memory) :
    onBuffer align size s compute = .next (s.commit s.regs.base size (compute s.regs.base)) := by
  obtain ⟨hw, ha, hb, hm, ho⟩ := h
  have hb' : ¬ 2 ^ s.host.addrWidth < s.regs.base + size := by omega
  simp [onBuffer, hw, ha, hb', hm, ho, require]

/-- What a memory command can answer: it aborted on its alignment, or every check held and it completed. -/
theorem onBuffer_next {align size : Nat} {s t : State} {compute : Nat → Memory}
    (h : onBuffer align size s compute = .next t) :
    (s.regs.baseWritten = true ∧ s.regs.base % align ≠ 0 ∧ t = s.takeAbort .misaligned) ∨
    (s.Ready align size ∧ t = s.commit s.regs.base size (compute s.regs.base)) := by
  unfold onBuffer at h
  by_cases hw : s.regs.baseWritten = false
  · simp [hw] at h
  · simp only [hw] at h
    rw [Bool.not_eq_false] at hw
    rcases require_next h with ⟨hc, hk⟩ | ⟨hc, ht⟩
    · right
      have ha : s.regs.base % align = 0 := by simpa using hc
      by_cases hb : 2 ^ s.host.addrWidth < s.regs.base + size
      · simp [hb] at hk
      · by_cases hm : s.host.memAdmit s.regs.base size = false
        · simp [hb, hm] at hk
        · by_cases ho : s.overlaps s.regs.base size = true
          · simp [hb, hm, ho] at hk
          · rw [Bool.not_eq_false] at hm
            rw [Bool.not_eq_true] at ho
            simp only [hb, hm, ho, if_false, Bool.false_eq_true, Bool.true_eq_false, Host.Outcome.next.injEq] at hk
            exact ⟨⟨hw, ha, by omega, hm, ho⟩, hk.symm⟩
    · exact .inl ⟨hw, by simpa using hc, ht⟩

/-- Every answer of a memory command, each with the checks that decide it (R303 rows 7 to 9, R73). -/
theorem onBuffer_cases (align size : Nat) (s : State) (compute : Nat → Memory) :
    (s.regs.baseWritten = false ∧ onBuffer align size s compute = .refused .baseUnwritten) ∨
    (s.regs.baseWritten = true ∧
      ((s.regs.base % align ≠ 0 ∧ onBuffer align size s compute = .next (s.takeAbort .misaligned)) ∨
      (s.regs.base % align = 0 ∧
        ((2 ^ s.host.addrWidth < s.regs.base + size ∧ onBuffer align size s compute = .fault .stuckPastTop) ∨
        (s.regs.base + size ≤ 2 ^ s.host.addrWidth ∧
          ((s.host.memAdmit s.regs.base size = false ∧ onBuffer align size s compute = .fault .stuckNotAdmitted) ∨
          (s.host.memAdmit s.regs.base size = true ∧
            ((s.overlaps s.regs.base size = true ∧ onBuffer align size s compute = .refused .overlappingBuffers) ∨
            (s.overlaps s.regs.base size = false ∧
              onBuffer align size s compute = .next (s.commit s.regs.base size (compute s.regs.base))))))))))) := by
  cases hw : s.regs.baseWritten
  · exact .inl ⟨rfl, by simp [onBuffer, hw]⟩
  · refine .inr ⟨rfl, ?_⟩
    by_cases ha : s.regs.base % align = 0
    · refine .inr ⟨ha, ?_⟩
      by_cases hb : 2 ^ s.host.addrWidth < s.regs.base + size
      · exact .inl ⟨hb, by simp [onBuffer, hw, ha, hb, require]⟩
      · refine .inr ⟨by omega, ?_⟩
        cases hm : s.host.memAdmit s.regs.base size
        · exact .inl ⟨rfl, by simp [onBuffer, hw, ha, hb, hm, require]⟩
        · refine .inr ⟨rfl, ?_⟩
          cases ho : s.overlaps s.regs.base size
          · exact .inr ⟨rfl, by simp [onBuffer, hw, ha, hb, hm, ho, require]⟩
          · exact .inl ⟨rfl, by simp [onBuffer, hw, ha, hb, hm, ho, require]⟩
    · exact .inl ⟨ha, by simp [onBuffer, hw, ha, require, abort]⟩

theorem frame_ready {lt : LaneType} {s : State} (h : s.ReadyFor lt)
    (f : KState lt.width lt.elems → KState lt.width lt.elems) :
    frame lt f s = .next (s.commit s.regs.base lt.bufferBytes (storeState s.mem s.regs.base (f (s.operand lt)))) :=
  onBuffer_ready h _

/-- A memory that differs from another at most in the `size` bytes from `base` on, and is as well kept. -/
structure StoredWithin (m m' : Memory) (base size : Nat) : Prop where
  outside : ∀ a, a < base ∨ base + size ≤ a → m'.byteAt a = m.byteAt a
  wf : m.wf = true → m'.wf = true
  listed : ∀ e ∈ m', (base ≤ e.1 ∧ e.1 < base + size) ∨ e ∈ m

theorem storeState_within (lt : LaneType) (m : Memory) (base : Nat) (S : KState lt.width lt.elems) :
    StoredWithin m (storeState m base S) base lt.bufferBytes where
  outside a h := storeState_outside m base S a h
  wf h := wf_storeState h base S
  listed e h := by
    rcases mem_storeElems _ _ h with h | h
    · left
      have : lt.width / 8 * (25 * lt.elems) = lt.bufferBytes := by unfold LaneType.bufferBytes; ring
      omega
    · exact .inr h

theorem storeVec_within {n : Nat} (m : Memory) (base : Nat) (S : KState 64 n) :
    StoredWithin m (storeState m base S) base (statesBytes n) where
  outside a h := storeState_outside m base S a (by unfold statesBytes at h; omega)
  wf h := wf_storeState h base S
  listed e h := by
    rcases mem_storeElems _ _ h with h | h
    · left
      unfold statesBytes
      omega
    · exact .inr h

theorem storeStates_within {n : Nat} (m : Memory) (base : Nat) (T : KStates n) :
    StoredWithin m (storeStates m base T) base (statesBytes n) where
  outside a h := storeStates_outside m base T a h
  wf h := wf_storeStates h base T
  listed e h := by
    rcases mem_storeElems _ _ h with h | h
    · left
      unfold statesBytes
      omega
    · exact .inr h

/-- What a command can do to the state it answers with: abort; complete on its buffer; probe; record a selection; or
report the degree. -/
inductive Effect (s : State) : State → Prop where
  | aborted (code : AbortCode) : Effect s (s.takeAbort code)
  | stored (align size : Nat) (m : Memory) (ready : s.Ready align size) (within : StoredWithin s.mem m s.regs.base size) :
      Effect s (s.commit s.regs.base size m)
  | probed : Effect s s.probe
  | selected (lt : LaneType) (nr : BitVec 5) (lo : 1 ≤ nr.toNat) (hi : nr.toNat ≤ lt.maxR) :
      Effect s (s.probe.setSel ⟨true, lt, nr, select lt s.probe.cap⟩)
  | reported (valid : s.regs.sel.valid = true) : Effect s (s.setResult (BitVec.ofNat 32 (degree s.regs.sel)))

theorem onBuffer_effect {align size : Nat} {s t : State} {compute : Nat → Memory}
    (hc : StoredWithin s.mem (compute s.regs.base) s.regs.base size) (h : onBuffer align size s compute = .next t) :
    Effect s t := by
  rcases onBuffer_next h with ⟨-, -, rfl⟩ | ⟨hr, rfl⟩
  · exact .aborted _
  · exact .stored align size _ hr hc

theorem frame_effect {lt : LaneType} {f : KState lt.width lt.elems → KState lt.width lt.elems} {s t : State}
    (h : frame lt f s = .next t) : Effect s t :=
  onBuffer_effect (storeState_within lt s.mem s.regs.base _) h

theorem require_effect {c : Bool} {code : AbortCode} {s t : State} {k : Out} (hk : k = .next t → Effect s t)
    (h : require c code s k = .next t) : Effect s t := by
  rcases require_next h with ⟨-, h⟩ | ⟨-, rfl⟩
  · exact hk h
  · exact .aborted code

theorem wrapper_effect {count : Nat} {ns : BitVec 4} {nr : BitVec 5} {capable : Bool} {s t : State} {k : Out}
    (hk : k = .next t → Effect s t) (h : wrapperChecks count ns nr capable s k = .next t) : Effect s t :=
  require_effect (require_effect (require_effect (require_effect hk))) h

/-- Everything exec can answer with a next state, for every command. -/
theorem exec_effect {i : Instr} {s t : State} (h : exec i s = .next t) : Effect s t := by
  cases i with
  | theta lt ns => exact require_effect frame_effect h
  | rhopi lt ns => exact require_effect frame_effect h
  | chi lt ns => exact require_effect frame_effect h
  | iota lt ns rci => exact require_effect (require_effect frame_effect) h
  | round lt ns rci => exact require_effect (require_effect frame_effect) h
  | permute lt ns nr => exact require_effect (require_effect frame_effect) h
  | pack ns => exact require_effect (onBuffer_effect (storeVec_within _ _ _)) h
  | unpack ns => exact require_effect (onBuffer_effect (storeStates_within _ _ _)) h
  | armP1 ns nr => exact wrapper_effect (onBuffer_effect (storeStates_within _ _ _)) h
  | armP2 ns nr => exact wrapper_effect (onBuffer_effect (storeStates_within _ _ _)) h
  | avx2P4 ns nr => exact wrapper_effect (onBuffer_effect (storeStates_within _ _ _)) h
  | probe =>
    simp only [exec, execProbe, Host.Outcome.next.injEq] at h
    exact h ▸ .probed
  | dispatch lt nr =>
    rcases require_next h with ⟨h0, h⟩ | ⟨-, rfl⟩
    · rcases require_next h with ⟨h1, h⟩ | ⟨-, rfl⟩
      · simp only [Host.Outcome.next.injEq] at h
        simp only [decide_eq_true_eq] at h0 h1
        exact h ▸ .selected lt nr (by omega) h1.2
      · exact .aborted _
    · exact .aborted _
  | pdegree =>
    rcases require_next h with ⟨h0, h⟩ | ⟨-, rfl⟩
    · simp only [Host.Outcome.next.injEq] at h
      exact h ▸ .reported h0
    · exact .aborted _
  | permuteSel ns => exact require_effect (require_effect frame_effect) h

/-- Everything the run of a command word can answer with a next state. -/
theorem runWord_effect {v : Word} {s t : State} (h : runWord v s = .next t) : Effect s t := by
  unfold runWord at h
  split at h
  · exact exec_effect h
  · simp only [abort, Host.Outcome.next.injEq] at h
    exact h ▸ .aborted _

end Sys2Proof.Machine
end

