-- ==== Sys2Proof/Laws/Commands.lean ====
section
/-! SUPPORT. Laws/Commands.lean: the memory commands over one form: their checks, then one load, computation and store of
the buffer. What such a command can answer, and which bytes its store depends on, are said here once for all of them. -/

namespace Sys2Proof.Machine

/-! ### Stores byte by byte -/

/-- A byte after a write depends on that byte before it. -/
theorem memWrite_agree {x : Nat} : ∀ (n a v : Nat) {m m' : Memory}, m.byteAt x = m'.byteAt x →
    (memWrite m a n v).byteAt x = (memWrite m' a n v).byteAt x
  | 0, _, _, _, _, h => h
  | n + 1, a, v, m, m', h => by
    simp only [memWrite]
    by_cases hx : x = a
    · subst hx
      rw [Memory.byteAt_setByte_self, Memory.byteAt_setByte_self]
    · rw [Memory.byteAt_setByte_ne _ _ hx, Memory.byteAt_setByte_ne _ _ hx]
      exact memWrite_agree n (a + 1) (v / 256) h

theorem storeElems_agree {w x : Nat} (base : Nat) (elem : Nat → BitVec w) : ∀ (count : Nat) {m m' : Memory},
    m.byteAt x = m'.byteAt x → (storeElems m base count elem).byteAt x = (storeElems m' base count elem).byteAt x
  | 0, _, _, h => h
  | i + 1, _, _, h => storeElems_agree base elem i (memWrite_agree _ _ _ h)

/-- Storing the same state, a byte depends on that byte before. -/
theorem storeState_agree {w n x : Nat} {m m' : Memory} (base : Nat) {S S' : KState w n} (hS : S = S')
    (h : m.byteAt x = m'.byteAt x) : (storeState m base S).byteAt x = (storeState m' base S').byteAt x :=
  hS ▸ storeElems_agree base _ _ h

theorem storeStates_agree {n x : Nat} {m m' : Memory} (base : Nat) {T T' : KStates n} (hT : T = T')
    (h : m.byteAt x = m'.byteAt x) : (storeStates m base T).byteAt x = (storeStates m' base T').byteAt x :=
  hT ▸ storeElems_agree base _ _ h

/-! ### The form of a memory command -/

/-- Memory after a memory command that completes on the buffer at `b`; `sel` is read by PERMUTE_SEL only. -/
def storedBy (sel : Sel) : Instr → Memory → Nat → Memory
  | .theta lt _, m, b => storeState m b (theta (loadState m b lt.width lt.elems))
  | .rhopi lt _, m, b => storeState m b (rhopi (loadState m b lt.width lt.elems))
  | .chi lt _, m, b => storeState m b (chi (loadState m b lt.width lt.elems))
  | .iota lt _ rci, m, b => storeState m b (iota rci.toNat (loadState m b lt.width lt.elems))
  | .round lt _ rci, m, b => storeState m b (keccakRound rci.toNat (loadState m b lt.width lt.elems))
  | .permute lt _ nr, m, b => storeState m b (permute lt.maxR nr.toNat (loadState m b lt.width lt.elems))
  | .pack ns, m, b => storeState m b (packStates (loadStates m b ns.toNat))
  | .unpack ns, m, b => storeStates m b (unpackStates (loadState m b 64 ns.toNat))
  | .armP1 _ nr, m, b =>
    let T := loadStates m b 1
    storeStates m b #v[(arm2 T[0] Config.dummyState nr.toNat).1]
  | .armP2 _ nr, m, b =>
    let T := loadStates m b 2
    let R := arm2 T[0] T[1] nr.toNat
    storeStates m b #v[R.1, R.2]
  | .avx2P4 _ nr, m, b =>
    let T := loadStates m b 4
    let R := avx4 T[0] T[1] T[2] T[3] nr.toNat
    storeStates m b #v[R.1, R.2.1, R.2.2.1, R.2.2.2]
  | .permuteSel _, m, b =>
    storeState m b (permute sel.lane.maxR sel.nr.toNat (loadState m b sel.lane.width sel.lane.elems))
  | .probe, m, _ => m
  | .dispatch _ _, m, _ => m
  | .pdegree, m, _ => m

/-- The checks of a wrapper, in order. -/
def wrapperPreChecks (count : Nat) (ns : BitVec 4) (nr : BitVec 5) (capable : Bool) : List (Bool × AbortCode) :=
  [(decide (ns.toNat = count), .stateCount), (decide (nr.toNat ≠ 0), .roundsZero),
    (decide (nr.toNat ≤ 24), .roundsExceed), (capable, .noCapability)]

/-- The checks a memory command makes before those of its buffer, in order, each with the code of its abort. -/
def preChecks (s : State) : Instr → List (Bool × AbortCode)
  | .theta lt ns => [(nsIsElems ns lt, .stateCount)]
  | .rhopi lt ns => [(nsIsElems ns lt, .stateCount)]
  | .chi lt ns => [(nsIsElems ns lt, .stateCount)]
  | .iota lt ns rci => [(decide (rci.toNat < 24), .reserved), (nsIsElems ns lt, .stateCount)]
  | .round lt ns rci => [(decide (rci.toNat < 24), .reserved), (nsIsElems ns lt, .stateCount)]
  | .permute lt ns nr => [(nsIsElems ns lt, .stateCount), (decide (nr.toNat ≤ lt.maxR), .roundsExceed)]
  | .pack ns => [(nsIsVector ns, .stateCount)]
  | .unpack ns => [(nsIsVector ns, .stateCount)]
  | .armP1 ns nr => wrapperPreChecks 1 ns nr s.host.hasArmSha3
  | .armP2 ns nr => wrapperPreChecks 2 ns nr s.host.hasArmSha3
  | .avx2P4 ns nr => wrapperPreChecks 4 ns nr s.host.hasAvx2
  | .permuteSel ns => [(s.regs.sel.valid, .noSelection), (nsIsElems ns s.regs.sel.lane, .stateCount)]
  | .probe => []
  | .dispatch _ _ => []
  | .pdegree => []

/-- The checks one after the other, then `k`. -/
def requireAll (l : List (Bool × AbortCode)) (s : State) (k : Out) : Out := l.foldr (fun p k => require p.1 p.2 s k) k

theorem requireAll_of {l : List (Bool × AbortCode)} (h : ∀ p ∈ l, p.1 = true) (s : State) (k : Out) :
    requireAll l s k = k := by
  induction l with
  | nil => rfl
  | cons p l ih =>
    simp only [List.mem_cons, forall_eq_or_imp] at h
    rw [requireAll, List.foldr_cons, require_of h.1]
    exact ih h.2

/-- What a run of checks can answer: one of them aborted, or all held and the command went on. -/
theorem requireAll_next {l : List (Bool × AbortCode)} {s t : State} {k : Out} (h : requireAll l s k = .next t) :
    (∃ code, t = s.takeAbort code) ∨ ((∀ p ∈ l, p.1 = true) ∧ k = .next t) := by
  induction l with
  | nil => exact .inr ⟨by simp, h⟩
  | cons p l ih =>
    rcases require_next h with ⟨hp, hl⟩ | ⟨-, ht⟩
    · rcases ih hl with ht | ⟨hall, hk⟩
      · exact .inl ht
      · exact .inr ⟨by simpa [hp] using hall, hk⟩
    · exact .inl ⟨_, ht⟩

section
variable {i : Instr} {s t : State} {align size : Nat}

/-- Every memory command is its checks, then one pass over its buffer. -/
theorem exec_of_buffer (hb : bufferOf s i = some (align, size)) :
    exec i s = requireAll (preChecks s i) s (onBuffer align size s (storedBy s.regs.sel i s.mem)) := by
  cases i <;> simp only [bufferOf, Option.some.injEq, Prod.mk.injEq, reduceCtorEq] at hb <;> obtain ⟨rfl, rfl⟩ := hb <;> rfl

/-- A memory command completes exactly so, where its checks hold and its buffer is ready. -/
theorem exec_completes (hb : bufferOf s i = some (align, size)) (hc : ∀ p ∈ preChecks s i, p.1 = true)
    (hr : s.Ready align size) :
    exec i s = .next (s.commit s.regs.base size (storedBy s.regs.sel i s.mem s.regs.base)) := by
  rw [exec_of_buffer hb, requireAll_of hc, onBuffer_ready hr]

/-- What a memory command can answer: it aborted, or its checks held, its buffer was ready and it completed. -/
theorem exec_next (hb : bufferOf s i = some (align, size)) (h : exec i s = .next t) :
    (∃ code, t = s.takeAbort code) ∨ ((∀ p ∈ preChecks s i, p.1 = true) ∧ s.Ready align size ∧
      t = s.commit s.regs.base size (storedBy s.regs.sel i s.mem s.regs.base)) := by
  rw [exec_of_buffer hb] at h
  rcases requireAll_next h with ha | ⟨hc, hk⟩
  · exact .inl ha
  · rcases onBuffer_next hk with ⟨-, -, ht⟩ | hr
    · exact .inl ⟨_, ht⟩
    · exact .inr ⟨hc, hr⟩

/-- What a command needs of the state beside memory: the registers of its thread and the host. -/
theorem bufferOf_congr {s' : State} (i : Instr) (hr : s'.regs = s.regs) : bufferOf s' i = bufferOf s i := by
  cases i <;> simp [bufferOf, hr]

theorem preChecks_congr {s' : State} (i : Instr) (hr : s'.regs = s.regs) (hh : s'.host = s.host) :
    preChecks s' i = preChecks s i := by
  cases i <;> simp [preChecks, hr, hh]

/-- The store of a memory command stays in its buffer. -/
theorem storedBy_within (hb : bufferOf s i = some (align, size)) (m : Memory) :
    StoredWithin m (storedBy s.regs.sel i m s.regs.base) s.regs.base size := by
  cases i <;> simp only [bufferOf, Option.some.injEq, Prod.mk.injEq, reduceCtorEq] at hb <;> obtain ⟨rfl, rfl⟩ := hb
  case pack ns => exact storeVec_within _ _ _
  case unpack ns => exact storeStates_within _ _ _
  case armP1 ns nr => exact storeStates_within _ _ _
  case armP2 ns nr => exact storeStates_within _ _ _
  case avx2P4 ns nr => exact storeStates_within _ _ _
  all_goals exact storeState_within _ _ _ _

/-- Memories that agree in the buffer of a command agree after it wherever they agreed before. -/
theorem storedBy_agree (hb : bufferOf s i = some (align, size)) {m m' : Memory}
    (hm : ∀ a, s.regs.base ≤ a → a < s.regs.base + size → m.byteAt a = m'.byteAt a) {a : Nat}
    (ha : m.byteAt a = m'.byteAt a) :
    (storedBy s.regs.sel i m s.regs.base).byteAt a = (storedBy s.regs.sel i m' s.regs.base).byteAt a := by
  have scalar : ∀ lt : LaneType, (∀ a, s.regs.base ≤ a → a < s.regs.base + lt.bufferBytes → m.byteAt a = m'.byteAt a) →
      loadState m s.regs.base lt.width lt.elems = loadState m' s.regs.base lt.width lt.elems :=
    fun lt h => loadState_congr _ _ _ h
  cases i <;> simp only [bufferOf, Option.some.injEq, Prod.mk.injEq, reduceCtorEq] at hb <;> obtain ⟨rfl, rfl⟩ := hb
  case pack ns =>
    have e := loadStates_congr s.regs.base ns.toNat hm
    exact storeState_agree _ (congrArg packStates e) ha
  case unpack ns =>
    have e := loadState_congr (m := m) (m' := m') s.regs.base 64 ns.toNat fun x h1 h2 => hm x h1 (by omega)
    exact storeStates_agree _ (congrArg unpackStates e) ha
  case armP1 ns nr =>
    have e := congrArg (fun T : KStates 1 => (#v[(arm2 T[0] Config.dummyState nr.toNat).1] : KStates 1))
      (loadStates_congr (m := m) (m' := m') s.regs.base 1 fun x h1 h2 => hm x h1 (by omega))
    exact storeStates_agree (n := 1) s.regs.base e ha
  case armP2 ns nr =>
    have e := congrArg (fun T : KStates 2 =>
        (#v[(arm2 T[0] T[1] nr.toNat).1, (arm2 T[0] T[1] nr.toNat).2] : KStates 2))
      (loadStates_congr (m := m) (m' := m') s.regs.base 2 fun x h1 h2 => hm x h1 (by omega))
    exact storeStates_agree (n := 2) s.regs.base e ha
  case avx2P4 ns nr =>
    have e := congrArg (fun T : KStates 4 =>
        let R := avx4 T[0] T[1] T[2] T[3] nr.toNat
        (#v[R.1, R.2.1, R.2.2.1, R.2.2.2] : KStates 4))
      (loadStates_congr (m := m) (m' := m') s.regs.base 4 fun x h1 h2 => hm x h1 (by omega))
    exact storeStates_agree (n := 4) s.regs.base e ha
  all_goals exact storeState_agree _ (by rw [scalar _ hm]) ha

end

end Sys2Proof.Machine
end

