-- ==== Sys2Proof/Laws/Encoding.lean ====
section
/-! SUPPORT. Laws/Encoding.lean: the fields of a laid-out command word, and a word as the row of its fields. -/

namespace Sys2Proof

variable (opc : BitVec 8) (lw ns : BitVec 4) (nr : BitVec 5)

@[simp] theorem opcField_packWord : opcField (packWord opc lw ns nr) = opc :=
  BitVec.extractLsb'_append_eq_of_le (xhi := opc ++ lw ++ 0#8 ++ ns ++ 0#3) (xlo := nr) (start := 24) (len := 8)
    (by decide) |>.trans <|
  BitVec.extractLsb'_append_eq_of_le (xhi := opc ++ lw ++ 0#8 ++ ns) (xlo := 0#3) (start := 19) (len := 8)
    (by decide) |>.trans <|
  BitVec.extractLsb'_append_eq_of_le (xhi := opc ++ lw ++ 0#8) (xlo := ns) (start := 16) (len := 8)
    (by decide) |>.trans <|
  BitVec.extractLsb'_append_eq_of_le (xhi := opc ++ lw) (xlo := 0#8) (start := 12) (len := 8) (by decide) |>.trans <|
  BitVec.extractLsb'_append_eq_left (a := opc) (b := lw)

@[simp] theorem lwField_packWord : lwField (packWord opc lw ns nr) = lw :=
  BitVec.extractLsb'_append_eq_of_le (xhi := opc ++ lw ++ 0#8 ++ ns ++ 0#3) (xlo := nr) (start := 20) (len := 4)
    (by decide) |>.trans <|
  BitVec.extractLsb'_append_eq_of_le (xhi := opc ++ lw ++ 0#8 ++ ns) (xlo := 0#3) (start := 15) (len := 4)
    (by decide) |>.trans <|
  BitVec.extractLsb'_append_eq_of_le (xhi := opc ++ lw ++ 0#8) (xlo := ns) (start := 12) (len := 4)
    (by decide) |>.trans <|
  BitVec.extractLsb'_append_eq_of_le (xhi := opc ++ lw) (xlo := 0#8) (start := 8) (len := 4) (by decide) |>.trans <|
  BitVec.extractLsb'_append_eq_right (a := opc) (b := lw)

@[simp] theorem rsv1Field_packWord : rsv1Field (packWord opc lw ns nr) = 0 :=
  BitVec.extractLsb'_append_eq_of_le (xhi := opc ++ lw ++ 0#8 ++ ns ++ 0#3) (xlo := nr) (start := 12) (len := 8)
    (by decide) |>.trans <|
  BitVec.extractLsb'_append_eq_of_le (xhi := opc ++ lw ++ 0#8 ++ ns) (xlo := 0#3) (start := 7) (len := 8)
    (by decide) |>.trans <|
  BitVec.extractLsb'_append_eq_of_le (xhi := opc ++ lw ++ 0#8) (xlo := ns) (start := 4) (len := 8)
    (by decide) |>.trans <|
  BitVec.extractLsb'_append_eq_right (a := opc ++ lw) (b := 0#8)

@[simp] theorem nsField_packWord : nsField (packWord opc lw ns nr) = ns :=
  BitVec.extractLsb'_append_eq_of_le (xhi := opc ++ lw ++ 0#8 ++ ns ++ 0#3) (xlo := nr) (start := 8) (len := 4)
    (by decide) |>.trans <|
  BitVec.extractLsb'_append_eq_of_le (xhi := opc ++ lw ++ 0#8 ++ ns) (xlo := 0#3) (start := 3) (len := 4)
    (by decide) |>.trans <|
  BitVec.extractLsb'_append_eq_right (a := opc ++ lw ++ 0#8) (b := ns)

@[simp] theorem rsv0Field_packWord : rsv0Field (packWord opc lw ns nr) = 0 :=
  BitVec.extractLsb'_append_eq_of_le (xhi := opc ++ lw ++ 0#8 ++ ns ++ 0#3) (xlo := nr) (start := 5) (len := 3)
    (by decide) |>.trans <|
  BitVec.extractLsb'_append_eq_right (a := opc ++ lw ++ 0#8 ++ ns) (b := 0#3)

@[simp] theorem nrField_packWord : nrField (packWord opc lw ns nr) = nr :=
  BitVec.extractLsb'_append_eq_right (a := opc ++ lw ++ 0#8 ++ ns ++ 0#3) (b := nr)

/-- A word is the row of its six fields. -/
theorem word_fields (v : Word) :
    opcField v ++ lwField v ++ rsv1Field v ++ nsField v ++ rsv0Field v ++ nrField v = v := by
  apply BitVec.eq_of_getLsbD_eq
  intro i hi
  simp only [opcField, lwField, rsv1Field, nsField, rsv0Field, nrField, BitVec.getLsbD_append,
    BitVec.getLsbD_extractLsb']
  interval_cases i <;> simp

/-- A word whose reserved fields are zero is laid out from its other fields. -/
theorem packWord_fields (v : Word) (h1 : rsv1Field v = 0) (h0 : rsv0Field v = 0) :
    packWord (opcField v) (lwField v) (nsField v) (nrField v) = v := by
  have h := word_fields v
  rw [h1, h0] at h
  exact h

@[simp] theorem LaneType.ofCode_code (lt : LaneType) : LaneType.ofCode lt.code = some lt := by cases lt <;> rfl

@[simp] theorem Opcode.ofCode_code (o : Opcode) : Opcode.ofCode o.code = some o := by cases o <;> rfl

end Sys2Proof
end

