-- ==== Sys2Proof/Laws/PerInstr.lean ====
section
/-! SUPPORT. Laws/PerInstr.lean: for every command, its encoded word carries its opcode in bits 31:24 and zeros in the two
reserved fields and in every field that 30_encoding.md R96 marks "0" (family WordShape). -/

namespace Sys2Proof.Laws.WordShape

/-- The encoded word selects the command's own opcode, in the terms of R97. -/
def Statement (i : Instr) : Prop :=
  opcField (encode i) = i.opcode.code ∧ rsv1Field (encode i) = 0 ∧ rsv0Field (encode i) = 0 ∧
  (i.opcode.usesLw = false → lwField (encode i) = 0) ∧
  (i.opcode.usesNs = false → nsField (encode i) = 0) ∧
  (i.opcode.usesNr = false → nrField (encode i) = 0)

theorem theta (lt : LaneType) (ns : BitVec 4) : Statement (.theta lt ns) := by
  simp [Statement, encode, Instr.opcode, Opcode.code, Opcode.usesLw, Opcode.usesNs, Opcode.usesNr]

theorem rhopi (lt : LaneType) (ns : BitVec 4) : Statement (.rhopi lt ns) := by
  simp [Statement, encode, Instr.opcode, Opcode.code, Opcode.usesLw, Opcode.usesNs, Opcode.usesNr]

theorem chi (lt : LaneType) (ns : BitVec 4) : Statement (.chi lt ns) := by
  simp [Statement, encode, Instr.opcode, Opcode.code, Opcode.usesLw, Opcode.usesNs, Opcode.usesNr]

theorem iota (lt : LaneType) (ns : BitVec 4) (rci : BitVec 5) : Statement (.iota lt ns rci) := by
  simp [Statement, encode, Instr.opcode, Opcode.code, Opcode.usesLw, Opcode.usesNs, Opcode.usesNr]

theorem round (lt : LaneType) (ns : BitVec 4) (rci : BitVec 5) : Statement (.round lt ns rci) := by
  simp [Statement, encode, Instr.opcode, Opcode.code, Opcode.usesLw, Opcode.usesNs, Opcode.usesNr]

theorem permute (lt : LaneType) (ns : BitVec 4) (nr : BitVec 5) : Statement (.permute lt ns nr) := by
  simp [Statement, encode, Instr.opcode, Opcode.code, Opcode.usesLw, Opcode.usesNs, Opcode.usesNr]

theorem pack (ns : BitVec 4) : Statement (.pack ns) := by
  simp [Statement, encode, Instr.opcode, Opcode.code, Opcode.usesLw, Opcode.usesNs, Opcode.usesNr]

theorem unpack (ns : BitVec 4) : Statement (.unpack ns) := by
  simp [Statement, encode, Instr.opcode, Opcode.code, Opcode.usesLw, Opcode.usesNs, Opcode.usesNr]

theorem armP1 (ns : BitVec 4) (nr : BitVec 5) : Statement (.armP1 ns nr) := by
  simp [Statement, encode, Instr.opcode, Opcode.code, Opcode.usesLw, Opcode.usesNs, Opcode.usesNr]

theorem armP2 (ns : BitVec 4) (nr : BitVec 5) : Statement (.armP2 ns nr) := by
  simp [Statement, encode, Instr.opcode, Opcode.code, Opcode.usesLw, Opcode.usesNs, Opcode.usesNr]

theorem avx2P4 (ns : BitVec 4) (nr : BitVec 5) : Statement (.avx2P4 ns nr) := by
  simp [Statement, encode, Instr.opcode, Opcode.code, Opcode.usesLw, Opcode.usesNs, Opcode.usesNr]

theorem probe : Statement (.probe) := by
  simp [Statement, encode, Instr.opcode, Opcode.code, Opcode.usesLw, Opcode.usesNs, Opcode.usesNr]

theorem dispatch (lt : LaneType) (nr : BitVec 5) : Statement (.dispatch lt nr) := by
  simp [Statement, encode, Instr.opcode, Opcode.code, Opcode.usesLw, Opcode.usesNs, Opcode.usesNr]

theorem pdegree : Statement (.pdegree) := by
  simp [Statement, encode, Instr.opcode, Opcode.code, Opcode.usesLw, Opcode.usesNs, Opcode.usesNr]

theorem permuteSel (ns : BitVec 4) : Statement (.permuteSel ns) := by
  simp [Statement, encode, Instr.opcode, Opcode.code, Opcode.usesLw, Opcode.usesNs, Opcode.usesNr]

end Sys2Proof.Laws.WordShape
end

