-- ==== Sys2Proof/Laws/Stages.lean ====
section
/-! SUPPORT. Laws/Stages.lean: the lane operations element by element, and states lane by lane. -/

namespace Sys2Proof.Machine

variable {w n : Nat}

@[simp] theorem laneXor_get (a b : Lane w n) (j : Nat) (h : j < n) : (laneXor a b)[j] = a[j] ^^^ b[j] := by
  simp [laneXor]

@[simp] theorem laneAnd_get (a b : Lane w n) (j : Nat) (h : j < n) : (laneAnd a b)[j] = a[j] &&& b[j] := by
  simp [laneAnd]

@[simp] theorem laneNot_get (a : Lane w n) (j : Nat) (h : j < n) : (laneNot a)[j] = ~~~a[j] := by
  simp [laneNot]

@[simp] theorem laneRotl_get (a : Lane w n) (k j : Nat) (h : j < n) : (laneRotl a k)[j] = rotl a[j] k := by
  simp [laneRotl]

@[simp] theorem bcast_get (c : BitVec w) (j : Nat) (h : j < n) : (bcast n c)[j] = c := by
  simp [bcast]

/-- Rotation is the library's, whose amount is reduced modulo the width (R12). -/
theorem rotl_eq_rotateLeft (a : BitVec w) (k : Nat) : rotl a k = a.rotateLeft k := by
  unfold rotl
  split
  · rename_i h
    simp [BitVec.rotateLeft, BitVec.rotateLeftAux, h, BitVec.ushiftRight_eq_zero]
  · rfl

/-- Rotating the zero word gives zero. -/
@[simp] theorem rotl_zero_word (k : Nat) : rotl (0#w) k = 0#w := by
  simp [rotl]

/-- Lane (x, y) of the state built from its lanes. -/
@[simp] theorem laneAt_ofLanes (f : Fin 5 → Fin 5 → Lane w n) (x y : Fin 5) : laneAt (ofLanes f) x y = f x y := by
  have h1 : (5 * y.val + x.val) % 5 = x.val := by omega
  have h2 : (5 * y.val + x.val) / 5 = y.val := by omega
  simp [laneAt, ofLanes, laneIndex, h1, h2]

/-- Every lane index is the index of one column and row. -/
theorem laneIndex_div_mod (i : Fin 25) : laneIndex ⟨i.val % 5, by omega⟩ ⟨i.val / 5, by omega⟩ = i := by
  apply Fin.ext
  simp only [laneIndex]
  omega

/-- States that agree lane by lane are equal. -/
theorem ext_laneAt {S T : KState w n} (h : ∀ x y, laneAt S x y = laneAt T x y) : S = T := by
  refine Vector.ext fun i hi => ?_
  have hidx : 5 * (i / 5) + i % 5 = i := by omega
  simpa [laneAt, laneIndex, hidx] using h ⟨i % 5, by omega⟩ ⟨i / 5, by omega⟩

theorem ofLanes_laneAt (S : KState w n) : ofLanes (laneAt S) = S := ext_laneAt fun x y => by simp

theorem columnParities_get (S : KState w n) (x : Fin 5) : (columnParities S)[x] =
    laneXor (laneXor (laneXor (laneXor (laneAt S x 0) (laneAt S x 1)) (laneAt S x 2)) (laneAt S x 3)) (laneAt S x 4) := by
  simp [columnParities]

theorem thetaEffect_get (C : Vector (Lane w n) 5) (x : Fin 5) :
    (thetaEffect C)[x] = laneXor C[x + 4] (laneRotl C[x + 1] 1) := by
  simp [thetaEffect]

/-- A walk leaves the lanes alone that none of its moves writes. -/
theorem rhopiWalk_other (i : Fin 25) : ∀ (moves : List (Nat × Fin 25)) (last : Lane w n) (S : KState w n),
    i ∉ moves.map Prod.snd → (rhopiWalk moves last S)[i] = S[i]
  | [], _, _, _ => rfl
  | (r, p) :: moves, last, S, h => by
    simp only [List.map_cons, List.mem_cons, not_or] at h
    rw [rhopiWalk, rhopiWalk_other i moves _ _ h.2]
    exact Vector.getElem_set_ne _ _ (fun he => h.1 (Fin.ext he.symm))

/-- Move `t` of a walk over distinct lanes writes its lane with the old value of the lane before it, rotated. -/
theorem rhopiWalk_move : ∀ (moves : List (Nat × Fin 25)) (last : Lane w n) (S : KState w n),
    (moves.map Prod.snd).Nodup → ∀ (t : Nat) (r : Nat) (p : Fin 25), moves[t]? = some (r, p) →
      (rhopiWalk moves last S)[p] = laneRotl (match t with
        | 0 => last
        | t + 1 => match moves[t]? with
          | some q => S[q.2]
          | none => last) r
  | [], _, _, _, _, _, _, h => by simp at h
  | (r0, p0) :: moves, last, S, hnd, 0, r, p, h => by
    simp only [List.map_cons, List.nodup_cons] at hnd
    simp only [List.getElem?_cons_zero, Option.some.injEq, Prod.mk.injEq] at h
    obtain ⟨rfl, rfl⟩ := h
    rw [rhopiWalk, rhopiWalk_other _ _ _ _ hnd.1]
    exact Vector.getElem_set_self _
  | (r0, p0) :: moves, last, S, hnd, t + 1, r, p, h => by
    simp only [List.map_cons, List.nodup_cons] at hnd
    simp only [List.getElem?_cons_succ] at h
    rw [rhopiWalk, rhopiWalk_move moves _ _ hnd.2 t r p h]
    congr 1
    cases t with
    | zero => rfl
    | succ t =>
      simp only [List.getElem?_cons_succ]
      have hlt : t < moves.length := by
        have := List.getElem?_eq_some_iff.mp h
        obtain ⟨h1, _⟩ := this
        omega
      have hmem : moves[t].2 ≠ p0 := fun he => hnd.1 (he ▸ List.mem_map.mpr ⟨_, List.getElem_mem hlt, rfl⟩)
      rw [List.getElem?_eq_getElem hlt]
      exact Vector.getElem_set_ne _ _ (fun he => hmem (Fin.ext he.symm))

/-- A round window runs from maxR−nr up to maxR−1. -/
theorem mem_roundWindow {maxR nr i : Nat} (h : nr ≤ maxR) : i ∈ roundWindow maxR nr ↔ maxR - nr ≤ i ∧ i < maxR := by
  simp only [roundWindow, forRange, List.mem_range'_1]
  omega

theorem roundWindow_length {maxR nr : Nat} (h : nr ≤ maxR) : (roundWindow maxR nr).length = nr := by
  simp only [roundWindow, forRange, List.length_range']
  omega

theorem rounds_append (is js : List Nat) (S : KState w n) : rounds (is ++ js) S = rounds js (rounds is S) := by
  simp [rounds]

@[simp] theorem rounds_nil (S : KState w n) : rounds [] S = S := rfl

@[simp] theorem rounds_cons (i : Nat) (is : List Nat) (S : KState w n) :
    rounds (i :: is) S = rounds is (keccakRound i S) := List.foldl_cons ..

end Sys2Proof.Machine
end

