-- ==== Sys2Proof/Tests/Slice0.lean ====
section
/-! SUPPORT. Tests/Slice0.lean: the model's own tests. Expected values come from spec/95_test_vectors.md and from the encodings
of spec/30_encoding.md, and each statement of Obligations.lean that has hypotheses has its witness here. -/

namespace Sys2Proof.Tests

open Sys2Proof Sys2Proof.Machine

/-! ### WellFormed: an ill-formed term for each check (R94, R98) -/

theorem test_iota_rci_24_refused : (Instr.iota .w64 1 24).wf = false := by decide
theorem test_round_rci_31_refused : (Instr.round .w8 1 31).wf = false := by decide
theorem test_iota_rci_23_accepted : (Instr.iota .w64 1 23).wf = true := by decide

/-! ### Decoding: words written out bit by bit from R91, R92 and R96

Field order: OPC ++ LW ++ RSV1 ++ NS ++ RSV0 ++ NR. -/

/-- The two words decode to the two commands. -/
def decodesTo (v : Word) (i : Instr) : Prop := decodeTableWord 32 v.toNat = some i

theorem test_decode_theta :
    decodesTo 0b00000001_0110_00000000_1000_000_00000#32 (.theta .v8 8) := by unfold decodesTo; decide
theorem test_decode_rhopi :
    decodesTo 0b00000010_0010_00000000_0001_000_00000#32 (.rhopi .w32 1) := by unfold decodesTo; decide
theorem test_decode_chi :
    decodesTo 0b00000011_0001_00000000_0001_000_00000#32 (.chi .w16 1) := by unfold decodesTo; decide
theorem test_decode_iota :
    decodesTo 0b00000100_0000_00000000_0001_000_10001#32 (.iota .w8 1 17) := by unfold decodesTo; decide
theorem test_decode_round :
    decodesTo 0b00000101_0011_00000000_0001_000_10111#32 (.round .w64 1 23) := by unfold decodesTo; decide
theorem test_decode_permute :
    decodesTo 0b00010000_0100_00000000_0010_000_11000#32 (.permute .v2 2 24) := by unfold decodesTo; decide
theorem test_decode_pack :
    decodesTo 0b00011000_0000_00000000_0100_000_00000#32 (.pack 4) := by unfold decodesTo; decide
theorem test_decode_unpack :
    decodesTo 0b00011001_0000_00000000_1000_000_00000#32 (.unpack 8) := by unfold decodesTo; decide
theorem test_decode_armP1 :
    decodesTo 0b00100000_0000_00000000_0001_000_11000#32 (.armP1 1 24) := by unfold decodesTo; decide
theorem test_decode_armP2 :
    decodesTo 0b00100001_0000_00000000_0010_000_00001#32 (.armP2 2 1) := by unfold decodesTo; decide
theorem test_decode_avx2P4 :
    decodesTo 0b00101000_0000_00000000_0100_000_01100#32 (.avx2P4 4 12) := by unfold decodesTo; decide
theorem test_decode_probe :
    decodesTo 0b00110000_0000_00000000_0000_000_00000#32 .probe := by unfold decodesTo; decide
theorem test_decode_dispatch :
    decodesTo 0b00110001_0101_00000000_0000_000_11000#32 (.dispatch .v4 24) := by unfold decodesTo; decide
theorem test_decode_pdegree :
    decodesTo 0b00110010_0000_00000000_0000_000_00000#32 .pdegree := by unfold decodesTo; decide
theorem test_decode_permuteSel :
    decodesTo 0b00110011_0000_00000000_0001_000_00000#32 (.permuteSel 1) := by unfold decodesTo; decide

/-- The rejections by name, one reserved word of V-E-1 for each reason. -/
theorem test_decode_rejects :
    decode 0x00000000 = .error .unknownOpcode ∧ decode 0x10301118 = .error .reservedBits ∧
    decode 0x10300138 = .error .reservedBits ∧ decode 0x31300118 = .error .mustBeZero ∧
    decode 0x01000101 = .error .mustBeZero ∧ decode 0x18100200 = .error .mustBeZero ∧
    decode 0x10700118 = .error .reservedLane ∧ decode 0x04000118 = .error .reservedRci := by decide

/-! ### Small states -/

/-- A host with `n` bytes of admitted memory at 0x1000, in a 16-bit address space. -/
def hostWith (arch : HostArch) (sha3 avx2 : Bool) (n : Nat) : HostParams := ⟨arch, sha3, avx2, 16, [⟨0x1000, n⟩]⟩

/-- Registers with BASE written. -/
def regsAt (base : Nat) : StreamRegs := { StreamRegs.reset with base := base, baseWritten := true }

/-- A state of that host: BASE of thread 0 written, and memory `m`. -/
def stateAt (h : HostParams) (base : Nat) (m : Memory) : State :=
  { State.resetOn h m with streams := [(0, regsAt base)] }

def other : HostParams := hostWith .other false false 1600
def armHost : HostParams := hostWith .aarch64 true false 400
def x86Host : HostParams := hostWith .x86_64 false true 800

/-- State A of 95_test_vectors.md, lane k = k, as lanes of `b` bytes at `a` (lane 0 is 0, so it lists nothing). -/
def memA (a b : Nat) : Memory := (List.range' 1 24).map fun k => (a + b * k, BitVec.ofNat 8 k)

/-- The state after a command that completed, or the state before. -/
def after (s : State) : Out → State
  | .next t => t
  | .fault _ => s
  | .refused _ => s

/-- Did the outcome give a next state? -/
def isNext : Out → Bool
  | .next _ => true
  | .fault _ => false
  | .refused _ => false

theorem next_of {o : Out} (h : isNext o = true) : ∃ t, o = .next t := by
  cases o with
  | next t => exact ⟨t, rfl⟩
  | fault r => cases h
  | refused r => cases h

/-- Lanes of width `w` at 0x1000 after a command. -/
def lanesAfter (i : Instr) (s : State) (w : Nat) (idx : List Nat) : List (BitVec w) :=
  idx.map fun k => loadElem (after s (exec i s)).mem 0x1000 w k

def otherA8 : State := stateAt other 0x1000 (memA 0x1000 1)
def otherA64 : State := stateAt other 0x1000 (memA 0x1000 8)
def otherZ : State := stateAt other 0x1000 []

/-! ### One step of each command, with the values of 95_test_vectors.md -/

/-- V-ST-1, theta on A, W64. -/
theorem test_theta_w64 : lanesAfter (.theta .w64 1) otherA64 64 [0, 1, 4, 24] = [0x1A, 0x09, 0x2F, 0x33] := by decide +kernel

/-- V-ST-2, theta on E0, W8. -/
theorem test_theta_single_bit : lanesAfter (.theta .w8 1) (stateAt other 0x1000 [(0x1000, 1)]) 8 (List.range 25) =
    [1, 1, 0, 0, 2, 0, 1, 0, 0, 2, 0, 1, 0, 0, 2, 0, 1, 0, 0, 2, 0, 1, 0, 0, 2] := by decide +kernel

/-- V-ST-1, rhopi on A, W8. -/
theorem test_rhopi_w8 : lanesAfter (.rhopi .w8 1) otherA8 8 (List.range 25) =
    [0x00, 0x60, 0x60, 0x42, 0x06, 0x30, 0x90, 0x50, 0x02, 0xC2, 0x02, 0xC1, 0x1A, 0x13, 0x50, 0x20, 0x50, 0x2C, 0x88,
      0x17, 0x80, 0x04, 0x07, 0x1E, 0x54] := by decide +kernel

/-- V-ST-1, rhopi on A, W64. -/
theorem test_rhopi_w64 : lanesAfter (.rhopi .w64 1) otherA64 64 [0, 1, 9, 10, 19, 24] =
    [0, 0x0000600000000000, 0xC000000000000002, 2, 0x1700000000000000, 0x54] := by decide +kernel

/-- V-ST-4, chi with the row snapshot, W8. -/
theorem test_chi_snapshot : lanesAfter (.chi .w8 1)
    (stateAt other 0x1000 [(0x1000, 1), (0x1001, 2), (0x1002, 4), (0x1003, 8), (0x1004, 0x10)]) 8 [0, 1, 2, 3, 4, 5] =
    [0x05, 0x0A, 0x14, 0x09, 0x12, 0] := by decide +kernel

/-- V-ST-1, chi on A, W64. -/
theorem test_chi_w64 : lanesAfter (.chi .w64 1) otherA64 64 [0, 1, 2, 14, 24] = [2, 0, 6, 0x0F, 0x19] := by decide +kernel

/-- V-ST-5, iota.w64 with RCI 23 on A. -/
theorem test_iota_w64 : lanesAfter (.iota .w64 1 23) otherA64 64 [0, 1, 24] = [0x8000000080008008, 1, 24] := by decide +kernel

/-- V-ST-6, iota.v4 with RCI 0: every element of lane 0 alike. -/
theorem test_iota_v4 : lanesAfter (.iota .v4 4 0) otherZ 64 [0, 1, 2, 3, 4] = [1, 1, 1, 1, 0] := by decide +kernel

/-- V-ST-1, a round with RCI 0 on A, W8. -/
theorem test_round_w8 : lanesAfter (.round .w8 1 0) otherA8 8 (List.range 25) =
    [0x03, 0x61, 0x54, 0x93, 0x2C, 0x51, 0x21, 0xA0, 0xD3, 0x01, 0x36, 0x1A, 0x26, 0x3A, 0x38, 0x75, 0xF2, 0x0C, 0x7F,
      0x89, 0xD3, 0x23, 0xC6, 0x29, 0x7C] := by decide +kernel

/-- V-ST-5, a round with RCI 5 on Z, W16: the truncated constant. -/
theorem test_round_w16_zero : lanesAfter (.round .w16 1 5) otherZ 16 [0, 1, 24] = [1, 0, 0] := by decide +kernel

/-- V-P-1, one round on Z, W8: RC[17], not RC[23] (C1). -/
theorem test_permute_w8_window : lanesAfter (.permute .w8 1 1) otherZ 8 [0, 1, 24] = [0x80, 0, 0] := by decide +kernel

/-- V-P-3, two rounds on Z, W32. -/
theorem test_permute_w32_two : lanesAfter (.permute .w32 1 2) otherZ 32 [0, 1, 2, 4, 24] =
    [0x80000001, 0x08081800, 0x4040C000, 0x4848D800, 0x00020206] := by decide +kernel

/-- State A (state 0) and state B (state 1) of V-V-1, state-major. -/
def memAB : Memory := memA 0x1000 8 ++ (List.range' (0x1000 + 200) 8).map fun a => (a, 0xFF)

/-- V-V-1, pack. -/
theorem test_pack : lanesAfter (.pack 2) (stateAt other 0x1000 memAB) 64 [0, 1, 2, 3, 48, 49] =
    [0, 0xFFFFFFFFFFFFFFFF, 1, 0, 24, 0] := by decide +kernel

/-- V-V-1, unpack of the packed buffer: word 2k is A[k], word 2k+1 is B[k]. -/
theorem test_unpack : lanesAfter (.unpack 2)
    (stateAt other 0x1000 ((List.range' 0x1008 8).map (fun a => (a, 0xFF)) ++
      (List.range' 1 24).map fun k => (0x1000 + 16 * k, BitVec.ofNat 8 k))) 64 [0, 1, 24, 25, 26, 49] =
    [0, 1, 24, 0xFFFFFFFFFFFFFFFF, 0, 0] := by decide +kernel

/-- V-P-9, `arm.p1 1` on A. -/
theorem test_armP1 : lanesAfter (.armP1 1 1) (stateAt armHost 0x1000 (memA 0x1000 8)) 64 [0] = [0x8000180080008012] := by
  decide +kernel

/-- Lane 0 of the state whose lane k is `f k`, after one round of the 64-bit permutation. -/
def oneRoundLane0 (f : Nat → Nat) : BitVec 64 :=
  (permuteW64 1 (Vector.ofFn fun k => Vector.replicate 1 (BitVec.ofNat 64 (f k.val))))[0][0]

/-- V-P-9, the permutation every kernel computes, on A and D with one round: lane 0. -/
theorem test_kernel_permutation :
    oneRoundLane0 id = 0x8000180080008012 ∧ oneRoundLane0 (fun k => 2 ^ k) = 0x80800000814AD29D := by decide +kernel

/-- V-HW-4: the capability aborts, with row 4 before rows 6 and 7. -/
theorem test_wrappers_without_extension :
    ((after otherZ (exec (.armP1 1 24) (stateAt x86Host 0x1000 []))).regs.status.word = 0x41) ∧
    ((after otherZ (exec (.avx2P4 4 24) (stateAt armHost 0x1000 []))).regs.status.word = 0x41) ∧
    ((after otherZ (exec (.armP1 1 0) otherZ)).regs.status.word = 0x21) ∧
    ((after otherZ (exec (.avx2P4 4 0) (stateAt armHost 1 []))).regs.status.word = 0x21) := by decide

/-- V-D-1: what PROBE writes. -/
theorem test_probe :
    (after otherZ (exec .probe (stateAt armHost 0 []))).cap.word = 3 ∧
    (after otherZ (exec .probe (stateAt x86Host 0 []))).cap.word = 5 ∧
    (after otherZ (exec .probe otherZ)).cap.word = 1 := by decide

/-- SEL after a DISPATCH. -/
def selAfter (h : HostParams) (lt : LaneType) (nr : BitVec 5) : Word :=
  (after otherZ (exec (.dispatch lt nr) (State.resetOn h []))).regs.sel.word

/-- V-D-1: what DISPATCH records. -/
theorem test_dispatch :
    selAfter armHost .w64 24 = 0x00011831 ∧ selAfter armHost .v2 24 = 0x00021841 ∧ selAfter armHost .v4 24 = 0x00001851 ∧
    selAfter x86Host .v4 24 = 0x00031851 ∧ selAfter x86Host .w64 24 = 0x00001831 ∧ selAfter x86Host .v2 24 = 0x00001841 ∧
    selAfter other .w8 18 = 0x00001201 ∧ selAfter other .v8 24 = 0x00001861 := by decide

/-- V-D-2: the round bounds of DISPATCH. -/
theorem test_dispatch_bounds :
    (after otherZ (exec (.dispatch .w64 0) otherZ)).regs.status.word = 0x21 ∧
    (after otherZ (exec (.dispatch .w64 25) otherZ)).regs.status.word = 0x11 ∧
    (after otherZ (exec (.dispatch .w8 19) otherZ)).regs.status.word = 0x11 := by decide

/-- A state in which a selection stands. -/
def selected (h : HostParams) (lt : LaneType) (nr : BitVec 5) : State :=
  { stateAt h 0x1000 [] with
    cap := Cap.ofProbe h
    streams := [(0, { regsAt 0x1000 with sel := ⟨true, lt, nr, select lt (Cap.ofProbe h)⟩ })] }

/-- RESULT after a PDEGREE. -/
def degreeAfter (h : HostParams) (lt : LaneType) : Word :=
  (after otherZ (exec .pdegree (selected h lt 1))).regs.result

/-- V-D-1: what PDEGREE reports. -/
theorem test_pdegree :
    degreeAfter armHost .w64 = 2 ∧ degreeAfter armHost .v2 = 2 ∧ degreeAfter armHost .v4 = 4 ∧ degreeAfter x86Host .v4 = 4 ∧
    degreeAfter x86Host .w64 = 1 ∧ degreeAfter other .v8 = 8 := by decide

/-- V-P-1 through PERMUTE_SEL, W16: RC[19]. -/
theorem test_permuteSel : lanesAfter (.permuteSel 1) (selected other .w16 1) 16 [0, 1, 24] = [0x000A, 0, 0] := by
  decide +kernel

/-! ### Outcomes of V-E-1: STATUS after one command word at BASE 0x1000, and the runs that stop -/

/-- STATUS after one command word at BASE 0x1000, from reset. -/
def statusAfter (v : Word) : Word := (after otherZ (runWord v otherZ)).regs.status.word

theorem test_reserved_words_abort :
    [0x00000000, 0x10700118, 0x10301118, 0x10300138, 0x01000101, 0x04000118, 0x18100200, 0x30000001, 0x33100100].map
      statusAfter = List.replicate 9 0x51 := by decide

theorem test_precondition_aborts :
    [0x32000000, 0x33000100, 0x10300218, 0x10000013, 0x18000100, 0x18000300, 0x10300119, 0x10600418].map statusAfter =
      [0x71, 0x71, 0x31, 0x31, 0x31, 0x31, 0x11, 0x31] := by decide

theorem test_misaligned :
    (after otherZ (runWord 0x10300118 (stateAt other 0x1004 []))).regs.status.word = 0x61 ∧
    (after otherZ (runWord 0x10100114 (stateAt other 0x1001 []))).regs.status.word = 0x61 := by decide

/-- How an outcome stopped, if it did. -/
def stopOf : Out → Option (Fault ⊕ Refusal)
  | .next _ => none
  | .fault r => some (.inl r)
  | .refused r => some (.inr r)

/-- BASE never written: refused; a buffer not admitted, or past the top of the address space: stuck. -/
theorem test_stops :
    stopOf (step (State.reset.withFetchWord 32 0x10300118)) = some (.inr .baseUnwritten) ∧
    stopOf (runWord 0x10300118 (stateAt armHost 0x2000 [])) = some (.inl .stuckNotAdmitted) ∧
    stopOf (runWord 0x10300118 (stateAt armHost 0xFFF8 [])) = some (.inl .stuckPastTop) := by decide +kernel

/-- PR-5: after the abort CMD holds the aborting word, and the next command is not executed. -/
theorem test_abort_keeps_word :
    (after otherZ (step (otherZ.withFetchWord 32 0x10000113))).regs.cmd = 0x10000113 ∧
    stopOf (step ((otherZ.takeAbort .roundsExceed).withFetchWord 32 0x10000112)) = some (.inl .commandAfterAbort) ∧
    stopOf (step (otherZ.takeAbort .roundsExceed)) = some (.inl .abortedBlock) := by decide

/-! ### Witnesses: for each statement with hypotheses, a state and operands that meet them all -/

/-- A ready buffer for every lane type at once: BASE 0x1000, 1600 admitted bytes. -/
theorem ready_all (lt : LaneType) : otherZ.ReadyFor lt := by cases lt <;> decide +kernel

/-- The same at the top of the address space: the last byte of the buffer is the last byte of memory. -/
def atTop : State := stateAt { other with admitted := [⟨0xFFE7, 25⟩] } 0xFFE7 []

theorem ready_at_top : atTop.ReadyFor .w8 := by decide

/-- The invariant for a state with one thread's registers. -/
theorem inv_of {s : State} {r : StreamRegs} (hm : Memory.wf s.mem = true) (ha : ∀ e ∈ s.mem, e.1 < 2 ^ s.host.addrWidth)
    (hs : s.streams = [(0, r)]) (hr : r ≠ StreamRegs.reset) (hc : Cap.Good s.host s.cap) (hg : StreamRegs.Good s.host s.cap r)
    (hg0 : StreamRegs.Good s.host s.cap StreamRegs.reset) (hw : s.window = []) : s.Inv := by
  refine ⟨hm, ha, ?_, hc, ?_, by simp [hw]⟩
  · simp [hs, Sparse.wf, Sparse.wfFrom, hr]
  · intro t
    simp only [State.regsOf, hs, Sparse.get]
    split
    · exact hg
    · exact hg0

theorem reset_regs_good (h : HostParams) (c : Cap) : StreamRegs.Good h c StreamRegs.reset :=
  ⟨Nat.pow_pos (by norm_num), fun _ => rfl, by simp [StreamRegs.reset], fun _ => rfl, by simp [StreamRegs.reset, Sel.reset]⟩

/-- A state with a selection meets the invariant. -/
theorem selected_inv (h : HostParams) (hw : h.addrWidth = 16) (lt : LaneType) (nr : BitVec 5) (h1 : 1 ≤ nr.toNat)
    (h2 : nr.toNat ≤ lt.maxR) : (selected h lt nr).Inv := by
  refine inv_of rfl (by simp [selected, stateAt, State.resetOn]) rfl ?_ ?_ ?_ (reset_regs_good _ _) rfl
  · intro he
    have := congrArg StreamRegs.baseWritten he
    simp [regsAt, StreamRegs.reset] at this
  · simp [selected, Cap.Good, Cap.ofProbe, stateAt, State.resetOn]
  · refine ⟨by simp [selected, regsAt, stateAt, State.resetOn, hw], fun _ => rfl, by simp [regsAt, StreamRegs.reset],
      by simp, fun _ => ⟨rfl, h1, h2, rfl⟩⟩

/-- A state in which a command has aborted. -/
def aborted : State := otherZ.takeAbort .roundsExceed

theorem aborted_inv : aborted.Inv := by
  refine inv_of (r := { regsAt 0x1000 with status := ⟨true, 1⟩ }) rfl (by simp [aborted, otherZ, stateAt, State.resetOn]) rfl
    (by decide) rfl ?_ (reset_regs_good _ _) rfl
  exact ⟨by decide, by simp, by decide, fun _ => rfl, by simp [regsAt, StreamRegs.reset, Sel.reset]⟩

/-- A state with pending actions. -/
def todo (s : State) (l : List HostEvent) : State := { s with pending := l }

theorem witness_DecodeEncodeRoundTrip : (Instr.iota .v8 8 23).wf = true := by decide

theorem witness_EachCommandHasOneWord : decode 0x04600817 = .ok (.iota .v8 8 23) := by decide

theorem witness_MaskSelectsOpcode : (0x01600800#32 &&& Opcode.theta.mask = Opcode.theta.matchWord) ∧
    ¬ (0x01600801#32 &&& Opcode.theta.mask = Opcode.theta.matchWord) := by decide

/-- One word of each kind that R98 lists (unknown opcode, LW 7, RSV1, RSV0, a "0" field, RCI 24), and the last word before
each limit, which is not reserved. -/
theorem witness_ReservedWordAborts :
    (∀ o : Opcode, opcField 0x00000000 ≠ o.code) ∧ opcField 0x10700118 = Opcode.permute.code ∧
    Opcode.permute.usesLw = true ∧ 7 ≤ (lwField 0x10700118).toNat ∧ rsv1Field 0x10301118 ≠ 0 ∧ rsv0Field 0x10300138 ≠ 0 ∧
    opcField 0x31300118 = Opcode.dispatch.code ∧ Opcode.dispatch.usesNs = false ∧ nsField 0x31300118 ≠ 0 ∧
    opcField 0x04000118 = Opcode.iota.code ∧ Opcode.iota.usesRci = true ∧ 24 ≤ (nrField 0x04000118).toNat ∧
    (todo otherZ [⟨0, .writeReg 0 0⟩]).anyAborted = false ∧
    decode 0x04600817 = .ok (.iota .v8 8 23) ∧ decode 0x1030011F = .ok (.permute .w64 1 31) := by
  refine ⟨fun o => by cases o <;> decide, ?_⟩
  decide

theorem witness_PseudoInstructionsExpand : (BitVec.toNat (18#5) = LaneType.w8.maxR ∧ BitVec.toNat (1#4) = LaneType.w8.elems) ∧
    BitVec.toNat (24#5) = LaneType.v8.maxR ∧ BitVec.toNat (8#4) = LaneType.v8.elems := by decide

theorem witness_ResetActionValues : (todo aborted [⟨3, .reset⟩]).pending = [⟨3, .reset⟩] := rfl

theorem witness_InvariantHoldsAtReset : Memory.wf [(0, 1), (0xFFFF, 0x80)] = true ∧
    ∀ e ∈ ([(0, 1), (0xFFFF, 0x80)] : Memory), e.1 < 2 ^ other.addrWidth := by decide

theorem witness_StepKeepsInvariant : (selected armHost .w64 24).Inv ∧
    ∃ t, step ((selected armHost .w64 24).withFetchWord 32 0x32000000) = .next t :=
  ⟨selected_inv _ rfl _ _ (by decide) (by decide), next_of (by decide)⟩

theorem witness_StepRunsDecodedCommand :
    (todo otherZ [⟨1, .writeReg 0 0x30000000⟩]).anyAborted = false ∧ decode (BitVec.ofNat 32 0x30000000) = .ok .probe ∧
    decodeTableWord 32 0x10300118 = some (.permute .w64 1 24) ∧ otherZ.pending = [] ∧ otherZ.anyAborted = false := by decide

theorem witness_CmdHoldsLastWord :
    ∃ t, step (todo otherZ [⟨1, .writeReg 0 (0x30000000#32).toNat⟩]) = .next t := next_of (by decide)

theorem witness_HostRegisterWrites :
    (todo otherZ [⟨1, .writeReg 1 0x12345⟩]).pending = [⟨1, .writeReg 1 0x12345⟩] ∧
    (todo otherZ [⟨1, .writeReg 2 7⟩]).pending = [⟨1, .writeReg 2 7⟩] ∧
    (todo otherZ [⟨1, .writeReg 5 7⟩]).pending = [⟨1, .writeReg 5 7⟩] ∧
    (todo otherZ [⟨1, .writeReg 6 7⟩]).pending = [⟨1, .writeReg 6 7⟩] ∧
    (todo otherZ [⟨1, .readReg 6⟩]).pending = [⟨1, .readReg 6⟩] := by decide

/-- Each register number is read in some state, BASE both written (thread 0) and unwritten (thread 1). -/
theorem witness_HostRegisterReads :
    (∀ n ∈ [0, 1, 2, 3, 4, 5], (todo otherZ [⟨0, .readReg n⟩]).pending = [⟨0, .readReg n⟩]) ∧
    (otherZ.regsOf 0).baseWritten = true ∧ (otherZ.regsOf 1).baseWritten = false := by decide

/-- V-ST-2: lanes 0 and 5 equal to 0xFF, every other lane 0. -/
def zeroParity : KState 8 1 :=
  ((Vector.replicate 25 (bcast 1 0)).set 0 (bcast 1 0xFF)).set 5 (bcast 1 0xFF)

theorem witness_ThetaFixesZeroParity : (∀ x : Fin 5, (columnParities zeroParity)[x] = bcast 1 0) ∧
    zeroParity ≠ Vector.replicate 25 (bcast 1 0) := by decide

/-- Two states that agree in row 0 and differ in row 1. -/
theorem witness_ChiFormula : (∀ x : Fin 5, laneAt zeroParity x 0 = laneAt (zeroParity.set 5 (bcast 1 0)) x 0) ∧
    zeroParity ≠ zeroParity.set 5 (bcast 1 0) := by decide

theorem witness_PermuteAddsOldestRound : 0 < LaneType.w8.maxR ∧ 17 < LaneType.w8.maxR := by decide

/-- The round counts at their bounds (also of KernelAdaptersArePortable). -/
theorem witness_VectorLanesRunInLockstep : 0 ≤ 24 ∧ 24 ≤ 24 := by decide

/-- Both clauses, at the smallest and the greatest round count and index. -/
theorem witness_PermuteIsRoundSequence : otherZ.mem.wf = true ∧ (1#4).toNat = LaneType.w8.elems ∧ 1 ≤ (1#5).toNat ∧
    (18#5).toNat ≤ LaneType.w8.maxR ∧ (23#5).toNat < 24 ∧ otherZ.ReadyFor .w8 :=
  ⟨rfl, by decide, by decide, by decide, by decide, ready_all _⟩

theorem witness_ThetaCompletes : (∀ lt : LaneType, otherZ.ReadyFor lt) ∧ (1#4).toNat = LaneType.w8.elems ∧
    (8#4).toNat = LaneType.v8.elems ∧ atTop.ReadyFor .w8 := ⟨ready_all, by decide, by decide, ready_at_top⟩
theorem witness_RhopiCompletes : (2#4).toNat = LaneType.v2.elems ∧ otherZ.ReadyFor .v2 := ⟨by decide, ready_all _⟩
theorem witness_ChiCompletes : (4#4).toNat = LaneType.v4.elems ∧ otherZ.ReadyFor .v4 := ⟨by decide, ready_all _⟩
theorem witness_IotaCompletes : (1#4).toNat = LaneType.w8.elems ∧ (23#5).toNat < 24 ∧ otherZ.ReadyFor .w8 :=
  ⟨by decide, by decide, ready_all _⟩
theorem witness_RoundCompletes : (1#4).toNat = LaneType.w16.elems ∧ (0#5).toNat < 24 ∧ otherZ.ReadyFor .w16 :=
  ⟨by decide, by decide, ready_all _⟩
theorem witness_PermuteCompletes : (1#4).toNat = LaneType.w8.elems ∧ (0#5).toNat ≤ LaneType.w8.maxR ∧
    (18#5).toNat ≤ LaneType.w8.maxR ∧ otherZ.ReadyFor .w8 := ⟨by decide, by decide, by decide, ready_all _⟩

theorem witness_PackCompletes : ((8#4).toNat = 2 ∨ (8#4).toNat = 4 ∨ (8#4).toNat = 8) ∧ otherZ.Ready 8 (200 * (8#4).toNat) :=
  ⟨by decide, ready_all .v8⟩
theorem witness_UnpackCompletes : ((2#4).toNat = 2 ∨ (2#4).toNat = 4 ∨ (2#4).toNat = 8) ∧ otherZ.Ready 8 (200 * (2#4).toNat) :=
  ⟨by decide, ready_all .v2⟩
theorem witness_PackUnpackRestoreMemory : otherZ.mem.wf = true ∧
    ((4#4).toNat = 2 ∨ (4#4).toNat = 4 ∨ (4#4).toNat = 8) ∧ otherZ.Ready 8 (200 * (4#4).toNat) :=
  ⟨rfl, by decide, ready_all .v4⟩
theorem witness_PackPermuteUnpack : LaneType.v2 ∈ [LaneType.v2, .v4, .v8] ∧ (2#4).toNat = LaneType.v2.elems ∧
    (24#5).toNat ≤ 24 ∧ otherZ.ReadyFor .v2 := ⟨by decide, by decide, by decide, ready_all _⟩

theorem witness_ArmP1Completes : (1#4).toNat = 1 ∧ 1 ≤ (1#5).toNat ∧ (24#5).toNat ≤ 24 ∧ armHost.arch = .aarch64 ∧
    armHost.sha3 = true ∧ (stateAt armHost 0x1000 []).Ready 8 200 := by decide +kernel
theorem witness_ArmP2Completes : (2#4).toNat = 2 ∧ 1 ≤ (1#5).toNat ∧ (24#5).toNat ≤ 24 ∧ armHost.arch = .aarch64 ∧
    armHost.sha3 = true ∧ (stateAt armHost 0x1000 []).Ready 8 400 := by decide +kernel
theorem witness_Avx2P4Completes : (4#4).toNat = 4 ∧ 1 ≤ (1#5).toNat ∧ (24#5).toNat ≤ 24 ∧ x86Host.arch = .x86_64 ∧
    x86Host.avx2 = true ∧ (stateAt x86Host 0x1000 []).Ready 8 800 := by decide +kernel
/-- The round counts of each kernel at their bounds. -/
theorem witness_ArmFusedKernelComputesArm2 : 1 ≤ 1 ∧ 1 ≤ 24 ∧ 24 ≤ 24 := by decide
theorem witness_Avx2ShiftKernelComputesAvx4 : 1 ≤ 1 ∧ 1 ≤ 24 ∧ 24 ≤ 24 := by decide

/-- Both cases of PROBE: the first, and one after it. -/
theorem witness_ProbeCompletes : otherZ.cap.probed = false ∧ (selected armHost .w64 24).cap.probed = true := by decide

/-- The bounds of DISPATCH, and a state for each row of R261. -/
theorem witness_DispatchCompletes : 1 ≤ (1#5).toNat ∧ (18#5).toNat ≤ 24 ∧ (18#5).toNat ≤ LaneType.w8.maxR ∧
    (24#5).toNat ≤ LaneType.v4.maxR ∧ (Cap.ofProbe armHost).sha3 = true ∧ (Cap.ofProbe x86Host).avx2 = true ∧
    (Cap.ofProbe other).sha3 = false := by decide

/-- A selection of each backend. -/
theorem witness_PdegreeCompletes : (selected other .v8 24).regs.sel.valid = true ∧
    (selected other .v8 24).regs.sel.backend = .portable ∧ (selected armHost .w64 24).regs.sel.backend = .armP1 ∧
    (selected armHost .v2 24).regs.sel.backend = .armP2 ∧ (selected x86Host .v4 24).regs.sel.backend = .avx2P4 := by decide

theorem witness_PermuteSelCompletes : (selected other .w8 18).regs.sel.valid = true ∧
    (selected other .w8 18).regs.sel.nr.toNat ≤ (selected other .w8 18).regs.sel.lane.maxR ∧
    (1#4).toNat = (selected other .w8 18).regs.sel.lane.elems ∧
    (selected other .w8 18).ReadyFor (selected other .w8 18).regs.sel.lane := by decide +kernel

theorem witness_BackendChangesNoResultBit : (selected x86Host .v4 24).regs.sel.valid = true ∧
    (4#4).toNat = (selected x86Host .v4 24).regs.sel.lane.elems ∧
    (selected x86Host .v4 24).ReadyFor (selected x86Host .v4 24).regs.sel.lane := by decide +kernel

/-- A word and a state for each row of R303, in the order of the table, then R73's refusal, then none. -/
theorem witness_FirstFailingCheckDecides :
    [firstFailing otherZ 0, firstFailing otherZ 0x32000000, firstFailing otherZ 0x10000013, firstFailing otherZ 0x20000100,
      firstFailing otherZ 0x10300119, firstFailing otherZ 0x20000118, firstFailing (stateAt other 0x1001 []) 0x10100114,
      firstFailing State.reset 0x10300118, firstFailing (stateAt other 0xFFF8 []) 0x10300118,
      firstFailing (stateAt other 0x2000 []) 0x10300118,
      firstFailing { otherZ with window := [⟨1, 0x1018, 1⟩] } 0x10000112,
      firstFailing { otherZ with window := [⟨1, 0x1019, 1⟩, ⟨0, 0x1000, 25⟩] } 0x10000112] =
    [some (.aborts .reserved), some (.aborts .noSelection), some (.aborts .stateCount), some (.aborts .roundsZero),
      some (.aborts .roundsExceed), some (.aborts .noCapability), some (.aborts .misaligned), some (.refuses .baseUnwritten),
      some (.stuck .stuckPastTop), some (.stuck .stuckNotAdmitted), some (.refuses .overlappingBuffers), none] := by
  decide +kernel

theorem witness_AbortRecords : (otherZ.regsOf 0).status.aborted = false ∧
    isNext (step (todo otherZ [⟨0, .writeReg 0 (0x10000113#32).toNat⟩])) = true ∧
    ((after otherZ (step (todo otherZ [⟨0, .writeReg 0 (0x10000113#32).toNat⟩]))).regsOf 0).status.aborted = true := by decide

/-- An aborted state for each clause: nothing pending, a CMD write, a BASE write of another thread, a reset. -/
theorem witness_AbortIsTerminal : aborted.Inv ∧ aborted.anyAborted = true ∧ aborted.pending = [] ∧
    (todo aborted [⟨1, .writeReg 0 0⟩]).pending = [⟨1, .writeReg 0 0⟩] ∧
    isNext (step (todo aborted [⟨1, .writeReg 1 8⟩])) = true ∧ HostAction.writeReg 1 8 ≠ .reset ∧
    (todo aborted [⟨1, .reset⟩]).pending = [⟨1, .reset⟩] := ⟨aborted_inv, by decide⟩

/-- A command of each kind that completes. -/
theorem witness_RegistersHaveTheirWriters : isNext (exec .probe otherZ) = true ∧ isNext (exec (.dispatch .w8 18) otherZ) = true ∧
    isNext (exec .pdegree (selected other .w8 18)) = true ∧ isNext (exec (.iota .w8 1 0) otherZ) = true ∧
    Instr.probe.opcode ≠ .dispatch ∧ Instr.probe.opcode ≠ .pdegree ∧ Instr.pdegree.opcode ≠ .probe := by decide

theorem witness_CapIsWriteOnce : isNext (step (todo otherZ [⟨0, .writeReg 0 0x30000000⟩])) = true ∧
    otherZ.cap.probed = false ∧ (selected other .w8 18).cap.probed = true ∧
    isNext (step (todo (selected other .w8 18) [⟨0, .writeReg 0 0x30000000⟩])) = true ∧
    HostAction.writeReg 0 0x30000000 ≠ .reset := by decide

theorem witness_ThreadsOwnTheirRegisters : isNext (step (todo otherZ [⟨1, .writeReg 1 64⟩])) = true ∧
    HostAction.writeReg 1 64 ≠ .reset ∧ (0 : Nat) ≠ 1 := by decide

/-- A command without a buffer, one that aborts, and one that stores. -/
theorem witness_CommandsWriteOnlyTheirBuffer : isNext (exec .probe otherZ) = true ∧ bufferOf otherZ .probe = none ∧
    (after otherZ (exec (.iota .w8 2 0) otherZ)).regs.status ≠ otherZ.regs.status ∧
    isNext (exec (.iota .w8 1 0) otherZ) = true ∧ bufferOf otherZ (.iota .w8 1 0) = some (1, 25) := by decide

/-- A memory that agrees in the buffer 0x1000 to 0x1018 and differs on both sides of it. -/
theorem witness_CommandsReadOnlyTheirBuffer : bufferOf otherZ (.iota .w8 1 0) = some (1, 25) ∧
    (∀ k, k < 25 → Memory.byteAt [(0xFFF, 7), (0x1019, 7)] (0x1000 + k) = otherZ.mem.byteAt (0x1000 + k)) ∧
    isNext (exec (.iota .w8 1 0) otherZ) = true := by decide

/-- Two threads whose buffers touch at 0x1019. -/
def twoThreads : State := { otherZ with streams := [(0, regsAt 0x1000), (1, regsAt 0x1019)] }

theorem witness_DisjointCommandsCommute : (0 : Nat) ≠ 1 ∧
    bufferOf (twoThreads.onThread 0) (.iota .w8 1 0) = some (1, 25) ∧
    bufferOf (twoThreads.onThread 1) (.iota .w8 1 1) = some (1, 25) ∧
    (twoThreads.regsOf 0).base + 25 ≤ (twoThreads.regsOf 1).base ∧
    isNext (exec (.iota .w8 1 0) (twoThreads.onThread 0)) = true ∧
    isNext (exec (.iota .w8 1 1) (twoThreads.onThread 1)) = true ∧
    (after otherZ (exec (.iota .w8 1 0) (twoThreads.onThread 0))).anyAborted = false ∧
    (after otherZ (exec (.iota .w8 1 1) (twoThreads.onThread 1))).anyAborted = false := by decide

/-- Two threads whose buffers share the byte 0x1018, after a command of thread 0. -/
def sharing : State := { otherZ with streams := [(0, regsAt 0x1000), (1, regsAt 0x1018)] }
def afterFirst : State := after otherZ (exec (.iota .w8 1 0) (sharing.onThread 0))

/-- The clauses on overlapping buffers, and on a join, a reset and a command of one thread. -/
theorem witness_DisjointCommandsCommute_overlap :
    bufferOf (sharing.onThread 0) (.iota .w8 1 0) = some (1, 25) ∧
    isNext (exec (.iota .w8 1 0) (sharing.onThread 0)) = true ∧ afterFirst.anyAborted = false ∧
    bufferOf (afterFirst.onThread 1) (.iota .w8 1 1) = some (1, 25) ∧
    (sharing.regsOf 0).base < (sharing.regsOf 1).base + 25 ∧ (sharing.regsOf 1).base < (sharing.regsOf 0).base + 25 ∧
    (Instr.iota .w8 1 1).wf = true ∧
    (∀ row ∈ (checkRows (afterFirst.onThread 1) (.iota .w8 1 1)).dropLast, row.1 = true) ∧
    isNext (step (todo afterFirst [⟨0, .join⟩])) = true ∧ isNext (step (todo afterFirst [⟨0, .reset⟩])) = true ∧
    isNext (step (todo sharing [⟨0, .writeReg 0 0x04000100⟩])) = true ∧ HostAction.writeReg 0 0x04000100 ≠ .join := by
  decide +kernel

theorem witness_ReprobeGivesSameSelection : (selected armHost .v2 24).Inv ∧ (selected armHost .v2 24).regs.sel.valid = true :=
  ⟨selected_inv _ rfl _ _ (by decide) (by decide), rfl⟩

theorem witness_IotaTwiceRestoresMemory : otherA8.mem.wf = true ∧ (1#4).toNat = LaneType.w8.elems ∧ (23#5).toNat < 24 ∧
    otherA8.ReadyFor .w8 := by decide

/-- Each row of the round-constant table is met. -/
theorem witness_OneRoundUsesLastNativeConstant : (LaneType.v8, 23) ∈ [(LaneType.w8, 17), (.w16, 19), (.w32, 21), (.w64, 23),
    (.v2, 23), (.v4, 23), (.v8, 23)] := by decide

/-- The narrowest lane's bit that wraps, and the widest lane. -/
theorem witness_RhopiMovesEveryLane : 0 < 1 ∧ 7 < 8 ∧ 63 < 64 ∧ (7 + 1) % 8 = 0 := by decide

theorem witness_WideLaneReadsNarrowLanes : 2 < 3 ∧ 7 < 8 := by decide

/-- The last address that exists and the first that does not. -/
theorem witness_HostStoreThenLoad : 0xFFFF < 2 ^ otherZ.host.addrWidth ∧ 2 ^ otherZ.host.addrWidth ≤ 0x10000 ∧
    (todo otherZ [⟨0, .storeByte 0xFFFF 1⟩, ⟨1, .loadByte 0xFFFF⟩]).pending =
      ⟨0, .storeByte 0xFFFF 1⟩ :: ⟨1, .loadByte 0xFFFF⟩ :: [] := by decide

end Sys2Proof.Tests
end

