-- ==== Sys2Proof/Proofs/Rhopi.lean ====
section
/-! PROOFS. Proofs/Rhopi.lean: the fused rho-pi pass lane by lane, and rotation bit by bit (R12, R25, R132). -/

namespace Sys2Proof.Machine

variable {w n : Nat}

/-- Rotation sends bit `i` to bit `(i + r) mod w`, whatever the unreduced amount (R12). -/
theorem getLsbD_rotl_add_mod (a : BitVec w) (r : Nat) {i : Nat} (hi : i < w) :
    (rotl a r).getLsbD ((i + r) % w) = a.getLsbD i := by
  have hr : r % w < w := Nat.mod_lt _ (by omega)
  have hadd : (i + r) % w = (i + r % w) % w := by simp
  rw [rotl_eq_rotateLeft, BitVec.getLsbD_rotateLeft, hadd]
  by_cases hwrap : i + r % w < w
  · have hge : ¬ i + r % w < r % w := by omega
    simp [Nat.mod_eq_of_lt hwrap, hge, hwrap]
  · have hmod : (i + r % w) % w = i + r % w - w := by
      rw [Nat.mod_eq_sub_mod (by omega), Nat.mod_eq_of_lt (by omega)]
    have hlt : i + r % w - w < r % w := by omega
    have hsrc : w - r % w + (i + r % w - w) = i := by omega
    simp [hmod, hlt, hsrc]

@[simp] theorem laneRotl_zero (a : Lane w n) : laneRotl a 0 = a :=
  Vector.ext fun j hj => by simp [rotl]

/-- The lane whose old value move `t` of the rho-pi pass writes on: lane 1, then the lane the move before it wrote. -/
def walkSource (t : Nat) : Fin 25 := if t = 0 then 1 else piTable.getD (t - 1) 0

@[simp] theorem walkSource_succ (t : Nat) : walkSource (t + 1) = piTable.getD t 0 := rfl

/-- The pass does not touch lane 0: no move writes it (R25). -/
theorem rhopi_lane_zero (S : KState w n) : (rhopi S)[0] = S[0] :=
  rhopiWalk_other 0 _ _ S (by decide)

/-- Move `t` of the pass, read off the tables. -/
theorem walk_getElem? {t : Nat} (ht : t < 24) :
    (rhoTable.zip piTable)[t]? = some (rhoTable.getD t 0, piTable.getD t 0) := by
  decide +revert

/-- The pass moves the lane at `walkSource t` to PI[t], rotated by RHO[t] (R132). -/
theorem rhopi_move (S : KState w n) {t : Nat} (ht : t < 24) :
    (rhopi S)[piTable.getD t 0] = laneRotl S[walkSource t] (rhoTable.getD t 0) := by
  have hdistinct : ((rhoTable.zip piTable).map Prod.snd).Nodup := by decide
  rw [rhopi, rhopiWalk_move _ _ _ hdistinct t _ _ (walk_getElem? ht)]
  cases t with
  | zero => rfl
  | succ t =>
    have hprev := walk_getElem? (t := t) (by omega)
    simp only [hprev, walkSource_succ]

/-- Every lane but (0, 0) is the source of one move, which takes it to (y, 2x + 3y) with RHOPOS as its amount: the walk
order's tables agree with the positional one (R25). -/
theorem exists_move_of_lane : ∀ x y : Fin 5, ¬ (x = 0 ∧ y = 0) → ∃ t < 24, walkSource t = laneIndex x y ∧
    piTable.getD t 0 = laneIndex y (2 * x + 3 * y) ∧ rhoTable.getD t 0 = rhoPos x y := by
  decide

/-- The pass moves lane (x, y) to (y, 2x + 3y), rotated by RHOPOS (R25). -/
theorem laneAt_rhopi (S : KState w n) (x y : Fin 5) :
    laneAt (rhopi S) y (2 * x + 3 * y) = laneRotl (laneAt S x y) (rhoPos x y) := by
  by_cases h00 : x = 0 ∧ y = 0
  · obtain ⟨rfl, rfl⟩ := h00
    have hamount : rhoPos 0 0 = 0 := rfl
    rw [hamount, laneRotl_zero]
    exact rhopi_lane_zero S
  · obtain ⟨t, ht, hsource, htarget, hamount⟩ := exists_move_of_lane x y h00
    simpa only [laneAt, hsource, htarget, hamount] using rhopi_move S ht

/-- Settles O18: the pass move by move and lane by lane, and rotation bit by bit. -/
theorem rhopiMovesEveryLane : Obligations.RhopiMovesEveryLane := by
  refine ⟨rfl, by decide, fun w n S => ⟨rhopi_lane_zero S, fun t ht => rhopi_move S ht, laneAt_rhopi S,
    fun k r j hj => ⟨laneRotl_get _ _ _ hj, fun i hi => getLsbD_rotl_add_mod _ r hi⟩⟩⟩

end Sys2Proof.Machine
end

