-- ==== Sys2Proof/Proofs/Encoding.lean ====
section
/-! PROOFS. Proofs/Encoding.lean: the masks of R97 read field by field, the worked encodings (R103) and the
pseudo-instructions (R102). -/

namespace Sys2Proof.Machine

/-! ### Words field by field (R91) -/

/-- Two words are equal exactly when their six fields are: the fields cover the word (R91). -/
theorem word_eq_iff_fields (u v : Word) : u = v ↔
    opcField u = opcField v ∧ lwField u = lwField v ∧ rsv1Field u = rsv1Field v ∧ nsField u = nsField v ∧
      rsv0Field u = rsv0Field v ∧ nrField u = nrField v := by
  constructor
  · rintro rfl
    exact ⟨rfl, rfl, rfl, rfl, rfl, rfl⟩
  · rintro ⟨hopc, hlw, hrsv1, hns, hrsv0, hnr⟩
    rw [← word_fields u, hopc, hlw, hrsv1, hns, hrsv0, hnr, word_fields]

@[simp] theorem opcField_and (u v : Word) : opcField (u &&& v) = opcField u &&& opcField v := BitVec.extractLsb'_and
@[simp] theorem lwField_and (u v : Word) : lwField (u &&& v) = lwField u &&& lwField v := BitVec.extractLsb'_and
@[simp] theorem rsv1Field_and (u v : Word) : rsv1Field (u &&& v) = rsv1Field u &&& rsv1Field v := BitVec.extractLsb'_and
@[simp] theorem nsField_and (u v : Word) : nsField (u &&& v) = nsField u &&& nsField v := BitVec.extractLsb'_and
@[simp] theorem rsv0Field_and (u v : Word) : rsv0Field (u &&& v) = rsv0Field u &&& rsv0Field v := BitVec.extractLsb'_and
@[simp] theorem nrField_and (u v : Word) : nrField (u &&& v) = nrField u &&& nrField v := BitVec.extractLsb'_and

/-! ### Masks and match values (R97) -/

/-- What a mask holds in an operand's place: zeros where the opcode uses the operand, else ones, so that the field is
tested. -/
def operandMask (w : Nat) (used : Bool) : BitVec w := if used then 0 else BitVec.allOnes w

theorem and_operandMask_eq_zero {w : Nat} (x : BitVec w) (used : Bool) :
    x &&& operandMask w used = 0 ↔ (used = false → x = 0) := by
  cases used <;> simp [operandMask]

@[simp] theorem opcField_mask (o : Opcode) : opcField o.mask = BitVec.allOnes 8 := by cases o <;> rfl
@[simp] theorem lwField_mask (o : Opcode) : lwField o.mask = operandMask 4 o.usesLw := by cases o <;> rfl
@[simp] theorem rsv1Field_mask (o : Opcode) : rsv1Field o.mask = BitVec.allOnes 8 := by cases o <;> rfl
@[simp] theorem nsField_mask (o : Opcode) : nsField o.mask = operandMask 4 o.usesNs := by cases o <;> rfl
@[simp] theorem rsv0Field_mask (o : Opcode) : rsv0Field o.mask = BitVec.allOnes 3 := by cases o <;> rfl
@[simp] theorem nrField_mask (o : Opcode) : nrField o.mask = operandMask 5 o.usesNr := by cases o <;> rfl

/-- The match value is the opcode's word with every other field 0. -/
theorem matchWord_eq_packWord (o : Opcode) : o.matchWord = packWord o.code 0 0 0 := by cases o <;> rfl

/-- A word matches an opcode under its mask exactly when its fields select the opcode (R97). -/
theorem and_mask_eq_matchWord (o : Opcode) (v : Word) : v &&& o.mask = o.matchWord ↔
    opcField v = o.code ∧ rsv1Field v = 0 ∧ rsv0Field v = 0 ∧ (o.usesLw = false → lwField v = 0) ∧
      (o.usesNs = false → nsField v = 0) ∧ (o.usesNr = false → nrField v = 0) := by
  rw [word_eq_iff_fields, matchWord_eq_packWord]
  simp only [opcField_and, lwField_and, rsv1Field_and, nsField_and, rsv0Field_and, nrField_and, opcField_mask,
    lwField_mask, rsv1Field_mask, nsField_mask, rsv0Field_mask, nrField_mask, opcField_packWord, lwField_packWord,
    rsv1Field_packWord, nsField_packWord, rsv0Field_packWord, nrField_packWord, BitVec.and_allOnes,
    and_operandMask_eq_zero]
  tauto

/-- Settles O3: the equivalence field by field, then the table of masks. -/
theorem maskSelectsOpcode : Obligations.MaskSelectsOpcode :=
  ⟨and_mask_eq_matchWord, by decide⟩

/-! ### Worked encodings and pseudo-instructions (R102, R103) -/

/-- Settles O5: the encoder and the decoder evaluated on each row of R103's table. -/
theorem workedEncodings : Obligations.WorkedEncodings := by
  unfold Obligations.WorkedEncodings
  decide

/-- `permute.full` is PERMUTE with any fields that hold N(L) and maxR(L): both fit their fields (R102). -/
theorem command_permuteFull {lt : LaneType} {nr : BitVec 5} {ns : BitVec 4} (hnr : nr.toNat = lt.maxR)
    (hns : ns.toNat = lt.elems) :
    (AsmLine.permuteFull lt).command = (AsmLine.permute lt nr (some ns)).command := by
  simp [AsmLine.command, asmNs, nsDefault, ← hnr, ← hns]

/-- Settles O6: `permute.full` for every lane type, the others as the table writes them. -/
theorem pseudoInstructionsExpand : Obligations.PseudoInstructionsExpand :=
  ⟨fun _ _ hnr _ hns => command_permuteFull hnr hns, rfl, rfl, rfl, rfl, fun _ => rfl⟩

end Sys2Proof.Machine
end

