-- ==== Sys2Proof/Proofs/LaneStages.lean ====
section
/-! PROOFS. Proofs/LaneStages.lean: theta, chi and iota lane by lane, then element by element (R130, R134, R136). -/

namespace Sys2Proof.Machine

variable {w n : Nat}

/-! ### Theta (R130) -/

/-- The parity of a column at one element: the XOR of that element over the column's five lanes. -/
theorem columnParities_get_elem (S : KState w n) (x : Fin 5) {j : Nat} (hj : j < n) :
    (columnParities S)[x][j] = (laneAt S x 0)[j] ^^^ (laneAt S x 1)[j] ^^^ (laneAt S x 2)[j] ^^^ (laneAt S x 3)[j] ^^^
      (laneAt S x 4)[j] := by
  simp only [columnParities_get, laneXor_get]

/-- Theta XORs every lane of a column with one effect, computed from the parities of the state before. -/
theorem laneAt_theta (S : KState w n) (x y : Fin 5) :
    laneAt (theta S) x y = laneXor (laneAt S x y) (thetaEffect (columnParities S))[x] := by
  rw [theta, laneAt_ofLanes]

/-- Settles O16: the effect of a column, read at element `j`, is made of the parities of its two neighbour columns. -/
theorem thetaFormula : Obligations.ThetaFormula := by
  intro w n S x y j hj C
  have hparity (c : Fin 5) : (columnParities S)[c][j] = C c := columnParities_get_elem S c hj
  rw [laneAt_theta, thetaEffect_get, laneXor_get, laneXor_get, laneRotl_get, hparity, hparity]

/-! ### Chi (R134, R135) -/

/-- Chi gives lane (x, y) from three lanes of row y of the state before. -/
theorem laneAt_chi (S : KState w n) (x y : Fin 5) : laneAt (chi S) x y =
    laneXor (laneAt S x y) (laneAnd (laneNot (laneAt S (x + 1) y)) (laneAt S (x + 2) y)) := by
  rw [chi, laneAt_ofLanes]

/-- A row of chi's result depends on that row alone (R135). -/
theorem laneAt_chi_congr {S T : KState w n} {y : Fin 5} (hrow : ∀ x, laneAt S x y = laneAt T x y) (x : Fin 5) :
    laneAt (chi S) x y = laneAt (chi T) x y := by
  simp only [laneAt_chi, hrow]

/-- Settles O19: the lane formula read at one element, and the independence of rows. -/
theorem chiFormula : Obligations.ChiFormula := by
  refine ⟨fun w n S x y j hj => ?_, fun w n S T y hrow x => laneAt_chi_congr hrow x⟩
  rw [laneAt_chi, laneXor_get, laneAnd_get, laneNot_get]

/-! ### Iota (R136) -/

/-- Iota XORs lane 0 with the truncated constant in every element. -/
theorem iota_lane_zero (i : Nat) (S : KState w n) : (iota i S)[0] = laneXor S[0] (bcast n (trunc w (rc i))) :=
  Vector.getElem_set_self _

/-- Iota leaves lanes 1 to 24 alone. -/
theorem iota_lane_of_ne_zero (i : Nat) (S : KState w n) {k : Nat} (hk : k < 25) (hne : k ≠ 0) : (iota i S)[k] = S[k] :=
  Vector.getElem_set_ne _ _ hne.symm

/-- Settles O20: lane 0 read at one element, and the frame on the other lanes. -/
theorem iotaFormula : Obligations.IotaFormula := by
  refine fun w n i S => ⟨fun j hj => ?_, fun k hk hne => iota_lane_of_ne_zero i S hk hne⟩
  rw [iota_lane_zero, laneXor_get, bcast_get, trunc]

end Sys2Proof.Machine
end

