-- ==== Sys2Proof/Proofs/Overwriting.lean ====
section
/-! PROOFS. Proofs/Overwriting.lean: a store that covers a buffer leaves nothing of what the buffer held before. -/

namespace Sys2Proof.Machine

/-- A byte that a write covers does not depend on memory before. -/
theorem memWrite_covered (m m' : Memory) {n a v x : Nat} (hlo : a ≤ x) (hhi : x < a + n) :
    (memWrite m a n v).byteAt x = (memWrite m' a n v).byteAt x := by
  obtain ⟨i, rfl⟩ := Nat.exists_eq_add_of_le hlo
  rw [memWrite_byte m n a v i (by omega), memWrite_byte m' n a v i (by omega)]

/-- A byte that a store of elements covers does not depend on memory before. -/
theorem storeElems_covered {w x : Nat} (base : Nat) (elem : Nat → BitVec w) (hlo : base ≤ x) :
    ∀ (count : Nat) (m m' : Memory), x < base + w / 8 * count →
      (storeElems m base count elem).byteAt x = (storeElems m' base count elem).byteAt x
  | 0, _, _, hhi => absurd hhi (by omega)
  | i + 1, m, m', hhi => by
    rw [Nat.mul_succ] at hhi
    simp only [storeElems]
    by_cases hx : x < base + w / 8 * i
    · exact storeElems_covered base elem hlo i _ _ hx
    · exact storeElems_agree base elem i (memWrite_covered m m' (by omega) (by omega))

/-- Of two stores into one buffer the second alone decides memory. -/
theorem storeElems_storeElems {w : Nat} {m : Memory} (hm : m.wf = true) (base count : Nat)
    (elem elem' : Nat → BitVec w) :
    storeElems (storeElems m base count elem) base count elem' = storeElems m base count elem' := by
  refine Memory.ext (wf_storeElems _ _ _ _ (wf_storeElems _ _ _ _ hm)) (wf_storeElems _ _ _ _ hm) fun x => ?_
  by_cases hx : base ≤ x ∧ x < base + w / 8 * count
  · exact storeElems_covered base elem' hx.1 count _ _ hx.2
  · have hout : x < base ∨ base + w / 8 * count ≤ x := by omega
    rw [storeElems_outside _ _ _ _ _ hout, storeElems_outside _ _ _ _ _ hout, storeElems_outside _ _ _ _ _ hout]

/-- Of two states stored at one address the second alone decides memory. -/
theorem storeState_storeState {w n : Nat} {m : Memory} (hm : m.wf = true) (base : Nat) (S T : KState w n) :
    storeState (storeState m base S) base T = storeState m base T :=
  storeElems_storeElems hm base _ _ _

end Sys2Proof.Machine
end

