-- ==== Sys2Proof/Proofs/CommandSequences.lean ====
section
/-! PROOFS. Proofs/CommandSequences.lean: commands on one buffer run one after the other compose the functions they apply
to its state: PERMUTE as its ROUND commands, ROUND as its stage commands (R180). -/

namespace Sys2Proof.Machine

/-! ### A completed command leaves its thread ready -/

/-- A thread's own completed command adds no overlap: only buffers of other threads count (R73). -/
@[simp] theorem State.commit_overlaps (s : State) (base size : Nat) (m : Memory) (b n : Nat) :
    (s.commit base size m).overlaps b n = s.overlaps b n := by
  rw [Bool.eq_iff_iff, State.overlaps_iff, State.overlaps_iff]
  simp

theorem State.Ready.commit {s : State} {align size : Nat} (h : s.Ready align size) (base n : Nat) (m : Memory) :
    (s.commit base n m).Ready align size := by
  simpa [State.Ready] using h

/-! ### Commands that apply a function to the state at BASE -/

section
variable {lt : LaneType} {ns : BitVec 4}

/-- Where its buffer is ready, `i` replaces the state of lane type `lt` at BASE by its image under `f` (R129). -/
def Applies (lt : LaneType) (i : Instr) (f : KState lt.width lt.elems → KState lt.width lt.elems) : Prop :=
  ∀ s : State, s.ReadyFor lt →
    exec i s = .next (s.commit s.regs.base lt.bufferBytes (storeState s.mem s.regs.base (f (s.operand lt))))

theorem theta_applies (hns : ns.toNat = lt.elems) : Applies lt (.theta lt ns) theta :=
  fun _ hr => exec_completes rfl (by simp [preChecks, nsIsElems, hns]) hr

theorem rhopi_applies (hns : ns.toNat = lt.elems) : Applies lt (.rhopi lt ns) rhopi :=
  fun _ hr => exec_completes rfl (by simp [preChecks, nsIsElems, hns]) hr

theorem chi_applies (hns : ns.toNat = lt.elems) : Applies lt (.chi lt ns) chi :=
  fun _ hr => exec_completes rfl (by simp [preChecks, nsIsElems, hns]) hr

theorem iota_applies (hns : ns.toNat = lt.elems) {rci : BitVec 5} (hrci : rci.toNat < 24) :
    Applies lt (.iota lt ns rci) (iota rci.toNat) :=
  fun _ hr => exec_completes rfl (by simp [preChecks, nsIsElems, hns, hrci]) hr

theorem round_applies (hns : ns.toNat = lt.elems) {rci : BitVec 5} (hrci : rci.toNat < 24) :
    Applies lt (.round lt ns rci) (keccakRound rci.toNat) :=
  fun _ hr => exec_completes rfl (by simp [preChecks, nsIsElems, hns, hrci]) hr

theorem permute_applies (hns : ns.toNat = lt.elems) {nr : BitVec 5} (hnr : nr.toNat ≤ lt.maxR) :
    Applies lt (.permute lt ns nr) (permute lt.maxR nr.toNat) :=
  fun _ hr => exec_completes rfl (by simp [preChecks, nsIsElems, hns, hnr]) hr

end

/-! ### Sequences of such commands -/

/-- `t` is reached from `s` by commands on the buffer at BASE alone: the buffer holds `S`, every other byte, the
registers and CAP are those of `s`, and the next command on the buffer can run. -/
structure ReachedWith (s : State) (lt : LaneType) (S : KState lt.width lt.elems) (t : State) : Prop where
  mem : t.mem = storeState s.mem s.regs.base S
  streams : t.streams = s.streams
  cap : t.cap = s.cap
  regs : t.regs = s.regs
  ready : t.ReadyFor lt

section
variable {s t t' : State} {lt : LaneType} {S : KState lt.width lt.elems} {i : Instr}
  {f : KState lt.width lt.elems → KState lt.width lt.elems}

theorem runAll_cons (h : exec i s = .next t) (is : List Instr) : runAll (i :: is) s = runAll is t := by
  simp only [runAll, h]

/-- The state in the buffer decides memory, the registers and CAP. -/
theorem ReachedWith.agree (h : ReachedWith s lt S t) (h' : ReachedWith s lt S t') :
    t'.mem = t.mem ∧ t'.streams = t.streams ∧ t'.cap = t.cap :=
  ⟨h'.mem.trans h.mem.symm, h'.streams.trans h.streams.symm, h'.cap.trans h.cap.symm⟩

theorem ReachedWith.operand (h : ReachedWith s lt S t) : t.operand lt = S := by
  rw [State.operand, h.mem, h.regs, loadState_storeState (LaneType_width_bytes lt)]

/-- The first command of a sequence applies its function to the operand. -/
theorem Applies.first (hi : Applies lt i f) (hr : s.ReadyFor lt) :
    ∃ t, exec i s = .next t ∧ ReachedWith s lt (f (s.operand lt)) t :=
  ⟨_, hi s hr, rfl, rfl, rfl, rfl, hr.commit ..⟩

/-- Every later command applies its function to what the buffer holds, and leaves no trace of that in memory. -/
theorem Applies.later (hi : Applies lt i f) (hm : s.mem.wf = true) (h : ReachedWith s lt S t) :
    ∃ u, exec i t = .next u ∧ ReachedWith s lt (f S) u := by
  obtain ⟨u, hu, hreach⟩ := hi.first h.ready
  have hmem : u.mem = storeState s.mem s.regs.base (f S) := by
    rw [hreach.mem, h.operand, h.mem, h.regs, storeState_storeState hm]
  exact ⟨u, hu, hmem, hreach.streams.trans h.streams, hreach.cap.trans h.cap, hreach.regs.trans h.regs, hreach.ready⟩

variable {ι : Type} {cmd : ι → Instr} {g : ι → KState lt.width lt.elems → KState lt.width lt.elems}

/-- Commands that follow others on the buffer apply their functions in turn. -/
theorem runAll_later (hm : s.mem.wf = true) : ∀ (ks : List ι) (S : KState lt.width lt.elems) (t : State),
    (∀ k ∈ ks, Applies lt (cmd k) (g k)) → ReachedWith s lt S t →
      ∃ u, runAll (ks.map cmd) t = .next u ∧ ReachedWith s lt (ks.foldl (fun S k => g k S) S) u
  | [], _, t, _, h => ⟨t, rfl, h⟩
  | k :: ks, S, t, happ, h => by
    simp only [List.mem_cons, forall_eq_or_imp] at happ
    obtain ⟨u, hu, hreach⟩ := happ.1.later hm h
    rw [List.map_cons, List.foldl_cons, runAll_cons hu]
    exact runAll_later hm ks (g k S) u happ.2 hreach

/-- A nonempty sequence of commands on a ready buffer completes, with their functions applied to the operand in turn. -/
theorem runAll_applies (hm : s.mem.wf = true) (hr : s.ReadyFor lt) {ks : List ι} (hne : ks ≠ [])
    (happ : ∀ k ∈ ks, Applies lt (cmd k) (g k)) :
    ∃ u, runAll (ks.map cmd) s = .next u ∧ ReachedWith s lt (ks.foldl (fun S k => g k S) (s.operand lt)) u := by
  cases ks with
  | nil => exact absurd rfl hne
  | cons k ks =>
    simp only [List.mem_cons, forall_eq_or_imp] at happ
    obtain ⟨t, ht, hreach⟩ := happ.1.first hr
    rw [List.map_cons, List.foldl_cons, runAll_cons ht]
    exact runAll_later hm ks _ t happ.2 hreach

end

/-! ### PERMUTE and ROUND as sequences (R180) -/

theorem LaneType_maxR_le (lt : LaneType) : lt.maxR ≤ 24 := by cases lt <;> decide

theorem roundWindow_ne_nil {maxR nr : Nat} (hpos : 1 ≤ nr) (hnr : nr ≤ maxR) : roundWindow maxR nr ≠ [] := by
  rw [← List.length_pos_iff, roundWindow_length hnr]
  exact hpos

/-- The ROUND command of an index in a lane type's window: the index fits the field RCI and is no reserved one. -/
theorem round_ofNat_applies {lt : LaneType} {ns : BitVec 4} (hns : ns.toNat = lt.elems) {i : Nat} (hi : i < 24) :
    Applies lt (.round lt ns (BitVec.ofNat 5 i)) (keccakRound i) := by
  have hfit : (BitVec.ofNat 5 i).toNat = i := by rw [BitVec.toNat_ofNat, Nat.mod_eq_of_lt (by omega)]
  simpa only [hfit] using round_applies hns (rci := BitVec.ofNat 5 i) (by omega)

/-- The ROUND commands over a window leave what one pass of the permutation leaves. -/
theorem runAll_rounds {s : State} {lt : LaneType} {ns : BitVec 4} {nr : Nat} (hm : s.mem.wf = true)
    (hns : ns.toNat = lt.elems) (hpos : 1 ≤ nr) (hnr : nr ≤ lt.maxR) (hr : s.ReadyFor lt) :
    ∃ u, runAll ((roundWindow lt.maxR nr).map fun i => .round lt ns (BitVec.ofNat 5 i)) s = .next u ∧
      ReachedWith s lt (permute lt.maxR nr (s.operand lt)) u := by
  refine runAll_applies hm hr (roundWindow_ne_nil hpos hnr) fun i hi => round_ofNat_applies hns ?_
  have hlt : i < lt.maxR := ((mem_roundWindow hnr).mp hi).2
  have hmax := LaneType_maxR_le lt
  omega

/-- The four stage commands, in order, each with the function it applies. -/
def stageCommands (lt : LaneType) (ns : BitVec 4) (rci : BitVec 5) :
    List (Instr × (KState lt.width lt.elems → KState lt.width lt.elems)) :=
  [(.theta lt ns, theta), (.rhopi lt ns, rhopi), (.chi lt ns, chi), (.iota lt ns rci, iota rci.toNat)]

/-- The four stage commands leave what one pass of the round leaves. -/
theorem runAll_stages {s : State} {lt : LaneType} {ns : BitVec 4} {rci : BitVec 5} (hm : s.mem.wf = true)
    (hns : ns.toNat = lt.elems) (hrci : rci.toNat < 24) (hr : s.ReadyFor lt) :
    ∃ u, runAll [.theta lt ns, .rhopi lt ns, .chi lt ns, .iota lt ns rci] s = .next u ∧
      ReachedWith s lt (keccakRound rci.toNat (s.operand lt)) u := by
  have happ : ∀ c ∈ stageCommands lt ns rci, Applies lt c.1 c.2 := by
    simpa [stageCommands] using ⟨theta_applies hns, rhopi_applies hns, chi_applies hns, iota_applies hns hrci⟩
  exact runAll_applies hm hr (List.cons_ne_nil _ _) happ

/-- Settles O25: on each side the commands complete and the buffer ends with the same state, which decides the rest. -/
theorem permuteIsRoundSequence : Obligations.PermuteIsRoundSequence := by
  refine ⟨fun s lt ns nr hm hns hpos hnr hr => ?_, fun s lt ns rci hm hns hrci hr => ?_⟩
  · obtain ⟨t, ht, hpass⟩ := (permute_applies hns hnr).first hr
    obtain ⟨t', ht', hseq⟩ := runAll_rounds hm hns hpos hnr hr
    exact ⟨t, t', ht, ht', hpass.agree hseq⟩
  · obtain ⟨t, ht, hpass⟩ := (round_applies hns hrci).first hr
    obtain ⟨t', ht', hseq⟩ := runAll_stages hm hns hrci hr
    exact ⟨t, t', ht, ht', hpass.agree hseq⟩

end Sys2Proof.Machine
end

