-- ==== Sys2Proof/Proofs/VectorLanes.lean ====
section
/-! PROOFS. Proofs/VectorLanes.lean: element `j` of every lane runs through the stages alone, so each logical state of a
vector permutation is permuted as a 64-bit state (R190, R191). -/

namespace Sys2Proof.Machine

/-! ### One element of a lane (R190) -/

/-- Element `j` of a lane, as a lane of one element. -/
def laneElem {w n : Nat} (a : Lane w n) (j : Fin n) : Lane w 1 := Vector.replicate 1 a[j]

section
variable {w n : Nat} (a b : Lane w n) (j : Fin n)

@[simp] theorem laneElem_get (i : Nat) (hi : i < 1) : (laneElem a j)[i] = a[j] := Vector.getElem_replicate hi

@[simp] theorem laneElem_laneXor : laneElem (laneXor a b) j = laneXor (laneElem a j) (laneElem b j) :=
  Vector.ext fun i hi => by simp

@[simp] theorem laneElem_laneAnd : laneElem (laneAnd a b) j = laneAnd (laneElem a j) (laneElem b j) :=
  Vector.ext fun i hi => by simp

@[simp] theorem laneElem_laneNot : laneElem (laneNot a) j = laneNot (laneElem a j) :=
  Vector.ext fun i hi => by simp

@[simp] theorem laneElem_laneRotl (k : Nat) : laneElem (laneRotl a k) j = laneRotl (laneElem a j) k :=
  Vector.ext fun i hi => by simp

@[simp] theorem laneElem_bcast (c : BitVec w) : laneElem (bcast n c) j = bcast 1 c :=
  Vector.ext fun i hi => by simp

end

/-! ### One logical state through the stages (R191) -/

section
variable {n : Nat} (S : KState 64 n) (j : Fin n)

@[simp] theorem stateOf_get (k : Nat) (hk : k < 25) : (stateOf S j)[k] = laneElem S[k] j := by
  simp [stateOf, laneElem]

@[simp] theorem laneAt_stateOf (x y : Fin 5) : laneAt (stateOf S j) x y = laneElem (laneAt S x y) j :=
  stateOf_get S j _ _

theorem stateOf_set (k : Nat) (hk : k < 25) (a : Lane 64 n) :
    stateOf (S.set k a) j = (stateOf S j).set k (laneElem a j) :=
  Vector.ext fun i hi => by simp [Vector.getElem_set, apply_ite (laneElem · j)]

theorem columnParities_stateOf (x : Fin 5) :
    (columnParities (stateOf S j))[x] = laneElem (columnParities S)[x] j := by
  simp only [columnParities_get, laneAt_stateOf, laneElem_laneXor]

theorem stateOf_theta : stateOf (theta S) j = theta (stateOf S j) :=
  ext_laneAt fun x y => by
    simp only [laneAt_stateOf, laneAt_theta, thetaEffect_get, columnParities_stateOf, laneElem_laneXor,
      laneElem_laneRotl]

/-- The lane carried along the walk is element `j` of the carried vector lane. -/
theorem stateOf_rhopiWalk : ∀ (moves : List (Nat × Fin 25)) (last : Lane 64 n) (S : KState 64 n),
    stateOf (rhopiWalk moves last S) j = rhopiWalk moves (laneElem last j) (stateOf S j)
  | [], _, _ => rfl
  | (r, p) :: moves, last, S => by
    simp only [rhopiWalk, stateOf_rhopiWalk moves, stateOf_set, laneElem_laneRotl, Fin.getElem_fin, stateOf_get]

theorem stateOf_rhopi : stateOf (rhopi S) j = rhopi (stateOf S j) := by
  rw [rhopi, rhopi, stateOf_rhopiWalk, stateOf_get]

theorem stateOf_chi : stateOf (chi S) j = chi (stateOf S j) :=
  ext_laneAt fun x y => by
    simp only [laneAt_stateOf, laneAt_chi, laneElem_laneXor, laneElem_laneAnd, laneElem_laneNot]

theorem stateOf_iota (i : Nat) : stateOf (iota i S) j = iota i (stateOf S j) := by
  rw [iota, iota, stateOf_set, stateOf_get, laneElem_laneXor, laneElem_bcast]

theorem stateOf_keccakRound (i : Nat) : stateOf (keccakRound i S) j = keccakRound i (stateOf S j) := by
  simp only [keccakRound, stateOf_theta, stateOf_rhopi, stateOf_chi, stateOf_iota]

theorem stateOf_rounds (is : List Nat) : stateOf (rounds is S) j = rounds is (stateOf S j) := by
  induction is generalizing S with
  | nil => rfl
  | cons i is ih => rw [rounds_cons, rounds_cons, ih, stateOf_keccakRound]

theorem stateOf_permute (nr : Nat) : stateOf (permute 24 nr S) j = permuteW64 nr (stateOf S j) :=
  stateOf_rounds S j _

end

/-- Settles O24: each stage commutes with taking one logical state, so the rounds of any window do. -/
theorem vectorLanesRunInLockstep : Obligations.VectorLanesRunInLockstep :=
  fun _ nr S j _ => stateOf_permute S j nr

end Sys2Proof.Machine
end

