-- ==== Sys2Proof/Proofs/PackRoundTrip.lean ====
section
/-! PROOFS. Proofs/PackRoundTrip.lean: storing what a buffer holds changes no memory, and PACK and UNPACK undo each
other (R192 to R194). -/

namespace Sys2Proof.Machine

/-! ### Storing back what was loaded -/

theorem Memory.setByte_byteAt {m : Memory} (hm : m.wf = true) (a : Nat) : m.setByte a (m.byteAt a) = m := by
  refine Memory.ext (Memory.wf_setByte hm _ _) hm fun x => ?_
  by_cases hx : x = a
  · rw [hx, Memory.byteAt_setByte_self]
  · exact Memory.byteAt_setByte_ne m _ hx

theorem memWrite_memRead {m : Memory} (hm : m.wf = true) : ∀ n a : Nat, memWrite m a n (memRead m a n) = m
  | 0, _ => rfl
  | n + 1, a => by
    have hb : (m.byteAt a).toNat < 256 := (m.byteAt a).isLt
    have hrest : memRead m a (n + 1) / 256 = memRead m (a + 1) n := by simp only [memRead]; omega
    have hfirst : BitVec.ofNat 8 (memRead m a (n + 1)) = m.byteAt a := by
      apply BitVec.eq_of_toNat_eq
      simp only [memRead, BitVec.toNat_ofNat]
      omega
    rw [memWrite, hrest, hfirst, memWrite_memRead hm n, Memory.setByte_byteAt hm]

/-- An element is wide enough for the bytes it is loaded from. -/
theorem toNat_loadElem (m : Memory) (base w i : Nat) :
    (loadElem m base w i).toNat = memRead m (base + w / 8 * i) (w / 8) := by
  have hlt : memRead m (base + w / 8 * i) (w / 8) < 2 ^ w := calc
    memRead m (base + w / 8 * i) (w / 8) < 256 ^ (w / 8) := memRead_lt ..
    _ = 2 ^ (8 * (w / 8)) := by rw [Nat.pow_mul]
    _ ≤ 2 ^ w := Nat.pow_le_pow_right (by decide) (Nat.mul_div_le w 8)
  rw [loadElem, BitVec.toNat_ofNat, Nat.mod_eq_of_lt hlt]

theorem storeElems_of_loadElem {w : Nat} {m : Memory} (hm : m.wf = true) (base : Nat) (elem : Nat → BitVec w) :
    ∀ count : Nat, (∀ i < count, elem i = loadElem m base w i) → storeElems m base count elem = m
  | 0, _ => rfl
  | i + 1, h => by
    rw [storeElems, h i (by omega), toNat_loadElem, memWrite_memRead hm]
    exact storeElems_of_loadElem hm base elem i fun k hk => h k (by omega)

theorem storeState_loadState {m : Memory} (hm : m.wf = true) (base w n : Nat) :
    storeState m base (loadState m base w n) = m := by
  refine storeElems_of_loadElem hm base _ _ fun i hi => ?_
  have hn : 0 < n := by omega
  rw [elemAt_get _ (Nat.div_lt_of_lt_mul (by omega)) (Nat.mod_lt i hn), loadState_get, Nat.div_add_mod]

theorem storeStates_loadStates {m : Memory} (hm : m.wf = true) (base n : Nat) :
    storeStates m base (loadStates m base n) = m := by
  refine storeElems_of_loadElem hm base _ _ fun i hi => ?_
  have hj : i / 25 < n := by omega
  rw [dif_pos hj, elemAt_get _ (Nat.mod_lt i (by decide)) (by decide), loadStates_get, Nat.div_add_mod]

/-! ### The two layouts on one buffer -/

section
variable {n : Nat}

/-- The layouts cover the same bytes: states stored over a packed state leave nothing of it. -/
theorem storeStates_storeState {m : Memory} (hm : m.wf = true) (base : Nat) (V : KState 64 n) (T : KStates n) :
    storeStates (storeState m base V) base T = storeStates m base T :=
  storeElems_storeElems hm base _ _ _

/-- A packed state stored over states leaves nothing of them. -/
theorem storeState_storeStates {m : Memory} (hm : m.wf = true) (base : Nat) (T : KStates n) (V : KState 64 n) :
    storeState (storeStates m base T) base V = storeState m base V :=
  storeElems_storeElems hm base _ _ _

theorem unpackStates_packStates (T : KStates n) : unpackStates (packStates T) = T := by
  ext j hj k hk i hi : 3
  obtain rfl : i = 0 := by omega
  simp [unpackStates, packStates]

theorem packStates_unpackStates (V : KState 64 n) : packStates (unpackStates V) = V := by
  ext k hk j hj : 2
  simp [unpackStates, packStates]

/-- PACK then UNPACK on the buffer at `base`, as memory to memory (R194). -/
theorem unpack_after_pack {m : Memory} (hm : m.wf = true) (base : Nat) :
    let m' := storeState m base (packStates (loadStates m base n))
    storeStates m' base (unpackStates (loadState m' base 64 n)) = m := by
  simp only [loadState_storeState (w := 64) rfl, unpackStates_packStates, storeStates_storeState hm,
    storeStates_loadStates hm]

/-- UNPACK then PACK on the buffer at `base`, as memory to memory (R194). -/
theorem pack_after_unpack {m : Memory} (hm : m.wf = true) (base : Nat) :
    let m' := storeStates m base (unpackStates (loadState m base 64 n))
    storeState m' base (packStates (loadStates m' base n)) = m := by
  simp only [loadStates_storeStates, packStates_unpackStates, storeState_storeStates hm, storeState_loadState hm]

end

/-! ### The two commands -/

section
variable {s : State} {ns : BitVec 4}

theorem exec_pack (hns : nsIsVector ns = true) (hr : s.Ready 8 (200 * ns.toNat)) :
    exec (.pack ns) s = .next (s.commit s.regs.base (200 * ns.toNat)
      (storeState s.mem s.regs.base (packStates (loadStates s.mem s.regs.base ns.toNat)))) :=
  exec_completes rfl (by simpa [preChecks] using hns) hr

theorem exec_unpack (hns : nsIsVector ns = true) (hr : s.Ready 8 (200 * ns.toNat)) :
    exec (.unpack ns) s = .next (s.commit s.regs.base (200 * ns.toNat)
      (storeStates s.mem s.regs.base (unpackStates (loadState s.mem s.regs.base 64 ns.toNat)))) :=
  exec_completes rfl (by simpa [preChecks] using hns) hr

end

/-- Settles O34: each command leaves its thread ready for the other, which undoes what it stored. -/
theorem packUnpackRestoreMemory : Obligations.PackUnpackRestoreMemory := by
  intro s ns hm hns hr
  have hvec : nsIsVector ns = true := decide_eq_true hns
  constructor
  · rw [runAll_cons (exec_pack hvec hr), runAll_cons (exec_unpack hvec (hr.commit ..))]
    exact ⟨_, rfl, unpack_after_pack hm s.regs.base⟩
  · rw [runAll_cons (exec_unpack hvec hr), runAll_cons (exec_pack hvec (hr.commit ..))]
    exact ⟨_, rfl, pack_after_unpack hm s.regs.base⟩

end Sys2Proof.Machine
end

