-- ==== Sys2Proof/Proofs/CheckTable.lean ====
section
/-! PROOFS. Proofs/CheckTable.lean: a command word's outcome is what the table of R303 decides, read off its rows in
order: the first failing row's outcome, or completion, which leaves STATUS alone (R301, R303). -/

namespace Sys2Proof.Machine

/-! ### A table of rows as one decision -/

/-- The rows in order, then `k`: the first row that fails decides the outcome. -/
def decideRows (rows : List (Bool × RowOutcome)) (s : State) (k : Out) : Out :=
  rows.foldr (fun row k => if row.1 then k else row.2.outcome s) k

theorem decideRows_append (rows rows' : List (Bool × RowOutcome)) (s : State) (k : Out) :
    decideRows (rows ++ rows') s k = decideRows rows s (decideRows rows' s k) := List.foldr_append

/-- The fold over the rows and the search that `firstFailing` makes find the same row. -/
theorem decideRows_eq_elim (rows : List (Bool × RowOutcome)) (s : State) (k : Out) :
    decideRows rows s k = ((rows.find? fun row => !row.1).map Prod.snd).elim k (RowOutcome.outcome s) := by
  induction rows with
  | nil => rfl
  | cons row rows ih =>
    obtain ⟨holds, r⟩ := row
    cases holds
    · rfl
    · exact ih

/-! ### The rows of a memory command -/

/-- Rows 7 to 9 of R303 and R73's refusal, for a command with a buffer. -/
def bufferRows (s : State) (align size : Nat) : List (Bool × RowOutcome) :=
  [(!s.regs.baseWritten || decide (s.regs.base % align = 0), .aborts .misaligned),
   (s.regs.baseWritten, .refuses .baseUnwritten),
   (decide (s.regs.base + size ≤ 2 ^ s.host.addrWidth), .stuck .stuckPastTop),
   (s.host.memAdmit s.regs.base size, .stuck .stuckNotAdmitted),
   (!s.overlaps s.regs.base size, .refuses .overlappingBuffers)]

/-- The pass over a buffer answers what its rows decide. -/
theorem onBuffer_eq_decideRows (align size : Nat) (s : State) (compute : Nat → Memory) :
    onBuffer align size s compute =
      decideRows (bufferRows s align size) s (.next (s.commit s.regs.base size (compute s.regs.base))) := by
  simp only [decideRows, bufferRows, List.foldr_cons, List.foldr_nil, RowOutcome.outcome]
  obtain ⟨hw, he⟩ | ⟨hw, ⟨ha, he⟩ | ⟨ha, ⟨hb, he⟩ | ⟨hb, ⟨hm, he⟩ | ⟨hm, ⟨ho, he⟩ | ⟨ho, he⟩⟩⟩⟩⟩ :=
    onBuffer_cases align size s compute <;> simp [*]

section
variable {s : State} {i : Instr} {align size : Nat}

theorem checkRows_of_buffer (hb : bufferOf s i = some (align, size)) :
    checkRows s i = (checkRows s i).take 5 ++ bufferRows s align size := by
  simp [checkRows, bufferRows, hb]

/-- The checks a memory command makes first are rows 2 to 6; RCI needs no row, since a reserved one does not decode. -/
theorem requireAll_preChecks (hi : i.wf = true) (hb : bufferOf s i = some (align, size)) (k : Out) :
    requireAll (preChecks s i) s k = decideRows ((checkRows s i).take 5) s k := by
  cases i <;> simp_all [bufferOf, requireAll, preChecks, wrapperPreChecks, require, abort, nsIsElems, nsIsVector,
    Instr.wf, decideRows, checkRows, needsSelection, requiredNs, roundBound, extensionPresent, RowOutcome.outcome,
    Nat.one_le_iff_ne_zero]

theorem exec_of_buffer_eq_decideRows (hi : i.wf = true) (hb : bufferOf s i = some (align, size)) :
    exec i s = decideRows (checkRows s i) s
      (.next (s.commit s.regs.base size (storedBy s.regs.sel i s.mem s.regs.base))) := by
  rw [exec_of_buffer hb, requireAll_preChecks hi hb, onBuffer_eq_decideRows, ← decideRows_append,
    ← checkRows_of_buffer hb]

end

/-! ### Every command -/

/-- A command answers what its rows decide; with no failing row it completes and STATUS is as before. -/
theorem exec_eq_decideRows {i : Instr} (hi : i.wf = true) (s : State) :
    ∃ t, exec i s = decideRows (checkRows s i) s (.next t) ∧ t.regs.status = s.regs.status := by
  cases hb : bufferOf s i with
  | some buffer => exact ⟨_, exec_of_buffer_eq_decideRows hi hb, by simp⟩
  | none =>
    cases i with
    | probe => exact ⟨s.probe, rfl, rfl⟩
    | dispatch lt nr =>
      refine ⟨s.probe.setSel ⟨true, lt, nr, select lt s.probe.cap⟩, ?_, by simp⟩
      simp [exec, execDispatch, require, abort, decideRows, checkRows, needsSelection, requiredNs, roundBound,
        extensionPresent, bufferOf, RowOutcome.outcome, Nat.one_le_iff_ne_zero]
    | pdegree =>
      refine ⟨s.setResult (BitVec.ofNat 32 (degree s.regs.sel)), ?_, by simp⟩
      simp [exec, execPdegree, require, abort, decideRows, checkRows, needsSelection, requiredNs, roundBound,
        extensionPresent, bufferOf, RowOutcome.outcome]
    | _ => cases hb

theorem Opcode.build_wf {o : Opcode} {nr : BitVec 5} (h : o.usesRci = true → nr.toNat < 24) (lt : LaneType)
    (ns : BitVec 4) : (o.build lt ns nr).wf = true := by
  cases o <;> simp_all [Opcode.usesRci, Opcode.build, Instr.wf]

/-- A decoded command is well formed: RCI 24 to 31 is rejected by name (R98). -/
theorem decode_wf {v : Word} {i : Instr} (h : decode v = .ok i) : i.wf = true := by
  unfold decode at h
  split at h
  · cases h
  next o _ =>
    split at h
    · cases h
    split at h
    · cases h
    split at h
    · cases h
    next lt _ =>
      split at h
      · cases h
      next hrci =>
        cases h
        exact Opcode.build_wf (fun huse => Nat.lt_of_not_le fun hge => hrci ⟨huse, hge⟩) lt _

/-! ### A command word -/

/-- A command word answers what its first failing row gives; with none it completes and STATUS is as before. -/
theorem runWord_eq_elim (v : Word) (s : State) :
    ∃ t, runWord v s = (firstFailing s v).elim (.next t) (RowOutcome.outcome s) ∧ t.regs.status = s.regs.status := by
  unfold runWord firstFailing
  cases hd : decode v with
  | error _ => exact ⟨s, rfl, rfl⟩
  | ok i =>
    obtain ⟨t, ht, hstatus⟩ := exec_eq_decideRows (decode_wf hd) s
    exact ⟨t, ht.trans (decideRows_eq_elim _ _ _), hstatus⟩

/-- A command word with a next state took the abort of its first failing row, or no row failed and STATUS is kept. -/
theorem runWord_next {v : Word} {s t : State} (h : runWord v s = .next t) :
    (∃ code, firstFailing s v = some (.aborts code) ∧ t = s.takeAbort code) ∨
    (firstFailing s v = none ∧ t.regs.status = s.regs.status) := by
  obtain ⟨t', ht', hstatus⟩ := runWord_eq_elim v s
  rw [h] at ht'
  cases hf : firstFailing s v with
  | none =>
    rw [hf] at ht'
    cases ht'
    exact .inr ⟨rfl, hstatus⟩
  | some r =>
    rw [hf] at ht'
    cases r with
    | aborts code =>
      cases ht'
      exact .inl ⟨code, rfl, rfl⟩
    | refuses r => cases ht'
    | stuck f => cases ht'

end Sys2Proof.Machine
end

