-- ==== Sys2Proof/Proofs/Aborts.lean ====
section
/-! PROOFS. Proofs/Aborts.lean: what a command that aborts records, and what the aborted block still does (R301, R302). -/

namespace Sys2Proof.Machine

/-! ### The step by the first pending action -/

theorem step_of_pending_nil {s : State} (h : s.pending = []) : step s = idle s := by rw [step, h]

theorem step_of_pending_cons {s : State} {e : HostEvent} {rest : List HostEvent} (h : s.pending = e :: rest) :
    step s = hostAction e.action (s.take e rest) := by rw [step, h]

@[simp] theorem State.take_anyAborted (s : State) (e : HostEvent) (rest : List HostEvent) :
    (s.take e rest).anyAborted = s.anyAborted := rfl

theorem State.setCmd_regsOf_ne (s : State) (v : Word) {u : Nat} (hu : u ≠ s.cur) :
    (s.setCmd v).regsOf u = s.regsOf u := s.setRegs_regsOf_ne _ hu

theorem State.takeAbort_regsOf_ne (s : State) (code : AbortCode) {u : Nat} (hu : u ≠ s.cur) :
    (s.takeAbort code).regsOf u = s.regsOf u := s.setRegs_regsOf_ne _ hu

/-! ### What an abort records (R301) -/

theorem writeCmd_of_anyAborted {s : State} (h : s.anyAborted = true) (v : Word) :
    writeCmd v s = .fault .commandAfterAbort := if_pos h

/-- A CMD write with a next state ran its word. -/
theorem writeCmd_next {v : Word} {s t : State} (h : writeCmd v s = .next t) : runWord v (s.setCmd v) = .next t := by
  cases ha : s.anyAborted with
  | true =>
    rw [writeCmd_of_anyAborted ha] at h
    cases h
  | false => simpa [writeCmd, ha] using h

/-- A CMD write after which the thread is newly aborted took the abort of the word's first failing row. -/
theorem writeCmd_aborts {v : Word} {s t : State} (hs : s.regs.status.aborted = false) (h : writeCmd v s = .next t)
    (ht : t.regs.status.aborted = true) :
    ∃ code, firstFailing (s.setCmd v) v = some (.aborts code) ∧ t = (s.setCmd v).takeAbort code := by
  rcases runWord_next (writeCmd_next h) with habort | ⟨-, hstatus⟩
  · exact habort
  · simp [hstatus, hs] at ht

theorem writeCmd_cur {v : Word} {s t : State} (h : writeCmd v s = .next t) : t.cur = s.cur := by
  cases runWord_effect (writeCmd_next h) <;> simp

/-- Settles O48: the step ran the word, so its next state is the abort of the first failing row, whose updates are read
off register by register. -/
theorem abortRecords : Obligations.AbortRecords := by
  intro s t u v rest hp hs hstep ht
  rw [step_of_pending_cons hp] at hstep
  have hwrite : writeCmd v (s.take ⟨u, .writeReg 0 v.toNat⟩ rest) = .next t := by
    simpa [hostAction, writeReg] using hstep
  have hcur : t.cur = u := writeCmd_cur hwrite
  rw [← hcur] at ht
  obtain ⟨code, hfail, rfl⟩ := writeCmd_aborts (s := s.take ⟨u, .writeReg 0 v.toNat⟩ rest) hs hwrite ht
  refine ⟨⟨code, hfail, ?_⟩, fun x hx => ?_, rfl, rfl, rfl, rfl⟩
  · exact (State.takeAbort_regs _ code).trans (by simp [Status.ofAbort])
  · rw [State.takeAbort_regsOf_ne _ _ hx, State.setCmd_regsOf_ne _ _ hx, State.take_regsOf]

/-! ### The aborted block (R302) -/

/-- The aborted condition is a matter of the threads' STATUS alone. -/
theorem State.anyAborted_congr {s t : State} (hs : Sparse.wf StreamRegs.reset s.streams = true)
    (ht : Sparse.wf StreamRegs.reset t.streams = true) (h : ∀ u, (t.regsOf u).status = (s.regsOf u).status) :
    t.anyAborted = s.anyAborted := by
  rw [Bool.eq_iff_iff, State.anyAborted_iff t ht, State.anyAborted_iff s hs]
  simp only [h]

theorem State.setBase_status (s : State) (a u : Nat) : ((s.setBase a).regsOf u).status = (s.regsOf u).status := by
  rw [State.setBase, State.setRegs_regsOf]
  split
  next hu => exact congrArg (fun x => (s.regsOf x).status) hu.symm
  next => rfl

theorem State.setBase_anyAborted {s : State} (hs : Sparse.wf StreamRegs.reset s.streams = true) (a : Nat) :
    (s.setBase a).anyAborted = s.anyAborted :=
  State.anyAborted_congr hs (Sparse.wf_put _ hs _ _) (s.setBase_status a)

/-- On the aborted block an action other than reset writes no register, or BASE: it takes no command. -/
theorem hostAction_of_anyAborted {s t : State} {a : HostAction} (hs : s.anyAborted = true) (ha : a ≠ .reset)
    (h : hostAction a s = .next t) : t.streams = s.streams ∨ ∃ b, t = s.setBase b := by
  cases a with
  | writeReg n v =>
    match n with
    | 0 => cases (writeCmd_of_anyAborted hs _).symm.trans h
    | 1 => cases h; exact .inr ⟨v, rfl⟩
    | 2 | 3 | 4 | 5 => cases h; exact .inl rfl
    | _ + 6 => cases h
  | readReg n =>
    simp only [hostAction, readReg] at h
    split at h <;> cases h
    exact .inl rfl
  | storeByte x b =>
    simp only [hostAction, storeByte] at h
    split at h <;> cases h
    exact .inl rfl
  | loadByte x =>
    simp only [hostAction, loadByte] at h
    split at h <;> cases h
    exact .inl rfl
  | join => cases h; exact .inl rfl
  | reset => exact absurd rfl ha

/-- An action other than reset keeps the aborted condition and every thread's STATUS. -/
theorem hostAction_keeps_aborted {s t : State} {a : HostAction} (hwf : Sparse.wf StreamRegs.reset s.streams = true)
    (hs : s.anyAborted = true) (ha : a ≠ .reset) (h : hostAction a s = .next t) :
    t.anyAborted = true ∧ ∀ u, (t.regsOf u).status = (s.regsOf u).status := by
  rcases hostAction_of_anyAborted hs ha h with hstreams | ⟨b, rfl⟩
  · exact ⟨by rwa [State.anyAborted, hstreams], fun u => by rw [State.regsOf, State.regsOf, hstreams]⟩
  · exact ⟨(State.setBase_anyAborted hwf b).trans hs, s.setBase_status b⟩

/-- Settles O49: each clause is the step on one kind of first action; only a write of BASE touches the registers, and it
leaves STATUS alone. The two faults are the model's names for R302's stop (assumption 4). -/
theorem abortIsTerminal : Obligations.AbortIsTerminal := by
  rintro s ⟨-, -, hwf, -⟩ hs
  refine ⟨fun hp => ?_, fun u v rest hp => ?_, fun e rest t hp hne hstep => ?_, fun u rest hp => ?_⟩
  · rw [step_of_pending_nil hp, idle, if_pos hs]
  · rw [step_of_pending_cons hp]
    exact writeCmd_of_anyAborted (s := s.take ⟨u, .writeReg 0 v⟩ rest) hs _
  · rw [step_of_pending_cons hp] at hstep
    exact hostAction_keeps_aborted (s := s.take e rest) hwf hs hne hstep
  · rw [step_of_pending_cons hp]
    exact ⟨_, rfl, State.resetBlock_anyAborted _⟩

end Sys2Proof.Machine
end

