-- ==== Sys2Proof/Proofs/DecodeEncode.lean ====
section
/-! PROOFS. Proofs/DecodeEncode.lean: the words that decode are the laid-out words of an opcode with operands it admits, so
decoding and encoding undo each other and every other word is reserved (R91 to R98, D36). -/

namespace Sys2Proof.Machine

/-! ### Codes (R92, R96) -/

theorem LaneType.code_toNat_lt (lt : LaneType) : lt.code.toNat < 7 := by cases lt <;> decide

theorem LaneType.exists_code {c : BitVec 4} (h : c.toNat < 7) : ∃ lt : LaneType, lt.code = c := by
  have hall : ∀ c : BitVec 4, c.toNat < 7 → ∃ lt ∈ LaneType.all, lt.code = c := by decide
  obtain ⟨lt, -, hlt⟩ := hall c h
  exact ⟨lt, hlt⟩

theorem LaneType.code_of_ofCode {c : BitVec 4} {lt : LaneType} (h : LaneType.ofCode c = some lt) : lt.code = c :=
  beq_iff_eq.mp (List.find?_some (p := fun lt : LaneType => lt.code == c) h)

theorem Opcode.code_of_ofCode {c : BitVec 8} {o : Opcode} (h : Opcode.ofCode c = some o) : o.code = c :=
  beq_iff_eq.mp (List.find?_some (p := fun o : Opcode => o.code == c) h)

theorem Opcode.code_injective {o o' : Opcode} (h : o.code = o'.code) : o = o' :=
  Option.some.inj ((Opcode.ofCode_code o).symm.trans (h ▸ Opcode.ofCode_code o'))

/-! ### Operands that an opcode admits (R96, R98) -/

/-- The operands an opcode admits: a field that R96 marks "0" is 0, and an RCI is below 24. -/
structure Admits (o : Opcode) (lt : LaneType) (ns : BitVec 4) (nr : BitVec 5) : Prop where
  lw_zero : o.usesLw = false → lt.code = 0
  ns_zero : o.usesNs = false → ns = 0
  nr_zero : o.usesNr = false → nr = 0
  rci_lt : o.usesRci = true → nr.toNat < 24

/-- The operands of a command, each 0 (W8 is lane type 0) where its opcode has none. -/
def instrOperands : Instr → LaneType × BitVec 4 × BitVec 5
  | .theta lt ns | .rhopi lt ns | .chi lt ns => (lt, ns, 0)
  | .iota lt ns nr | .round lt ns nr | .permute lt ns nr => (lt, ns, nr)
  | .pack ns | .unpack ns | .permuteSel ns => (.w8, ns, 0)
  | .armP1 ns nr | .armP2 ns nr | .avx2P4 ns nr => (.w8, ns, nr)
  | .dispatch lt nr => (lt, 0, nr)
  | .probe | .pdegree => (.w8, 0, 0)

theorem build_instrOperands (i : Instr) :
    i.opcode.build (instrOperands i).1 (instrOperands i).2.1 (instrOperands i).2.2 = i := by cases i <;> rfl

theorem admits_instrOperands {i : Instr} (hi : i.wf = true) :
    Admits i.opcode (instrOperands i).1 (instrOperands i).2.1 (instrOperands i).2.2 := by
  refine ⟨?_, ?_, ?_, ?_⟩
  · cases i <;> simp [Instr.opcode, instrOperands, Opcode.usesLw, LaneType.code]
  · cases i <;> simp [Instr.opcode, instrOperands, Opcode.usesNs]
  · cases i <;> simp [Instr.opcode, instrOperands, Opcode.usesNr]
  · cases i <;> simp_all [Instr.opcode, instrOperands, Opcode.usesRci, Instr.wf]

section
variable {o : Opcode} {lt : LaneType} {ns : BitVec 4} {nr : BitVec 5}

/-- The encoder lays out an opcode's number and its operands. -/
theorem encode_build (h : Admits o lt ns nr) : encode (o.build lt ns nr) = packWord o.code lt.code ns nr := by
  obtain ⟨hlw, hns, hnr, -⟩ := h
  cases o <;> simp_all [Opcode.build, encode, Opcode.code, Opcode.usesLw, Opcode.usesNs, Opcode.usesNr]

/-- The decoder reads a laid-out word back. -/
theorem decode_packWord (h : Admits o lt ns nr) : decode (packWord o.code lt.code ns nr) = .ok (o.build lt ns nr) := by
  obtain ⟨hlw, hns, hnr, hrci⟩ := h
  have hzero : ¬ ((o.usesLw = false ∧ lt.code ≠ 0) ∨ (o.usesNs = false ∧ ns ≠ 0) ∨ (o.usesNr = false ∧ nr ≠ 0)) := by
    tauto
  have hidx : ¬ (o.usesRci = true ∧ 24 ≤ nr.toNat) := fun hr => absurd (hrci hr.1) (by omega)
  simp only [decode, opcField_packWord, Opcode.ofCode_code, rsv1Field_packWord, rsv0Field_packWord, lwField_packWord,
    nsField_packWord, nrField_packWord, LaneType.ofCode_code, if_neg hzero, if_neg hidx, ne_eq, not_true_eq_false,
    or_self, if_false]

end

/-- Every word that decodes is laid out from an opcode and operands it admits. -/
theorem decode_ok {v : Word} {i : Instr} (h : decode v = .ok i) :
    ∃ (o : Opcode) (lt : LaneType) (ns : BitVec 4) (nr : BitVec 5),
      Admits o lt ns nr ∧ v = packWord o.code lt.code ns nr ∧ i = o.build lt ns nr := by
  unfold decode at h
  split at h
  · cases h
  next o ho =>
    split at h
    · cases h
    next hrsv =>
      split at h
      · cases h
      next hzero =>
        split at h
        · cases h
        next lt hlt =>
          split at h
          · cases h
          next hrci =>
            have hcode := LaneType.code_of_ofCode hlt
            push Not at hrsv hzero hrci
            obtain ⟨hlw, hns, hnr⟩ := hzero
            refine ⟨o, lt, nsField v, nrField v, ⟨hcode ▸ hlw, hns, hnr, hrci⟩, ?_, (Except.ok.inj h).symm⟩
            rw [Opcode.code_of_ofCode ho, hcode, packWord_fields v hrsv.1 hrsv.2]

/-- Settles O1: the word of a command is laid out from its operands, which its opcode admits. -/
theorem decodeEncodeRoundTrip : Obligations.DecodeEncodeRoundTrip := by
  intro i hi
  have hadm := admits_instrOperands hi
  have hround := decode_packWord hadm
  rwa [← encode_build hadm, build_instrOperands] at hround

/-- Settles O2: a word that decodes is laid out as the encoder lays out the command it decodes to. -/
theorem eachCommandHasOneWord : Obligations.EachCommandHasOneWord := by
  intro v i h
  refine ⟨decode_wf h, ?_⟩
  obtain ⟨o, lt, ns, nr, hadm, rfl, rfl⟩ := decode_ok h
  exact encode_build hadm

/-! ### Reserved words (R98) -/

/-- No laid-out word of admitted operands is reserved. -/
theorem not_reservedWord_packWord {o : Opcode} {lt : LaneType} {ns : BitVec 4} {nr : BitVec 5}
    (h : Admits o lt ns nr) : ¬ ReservedWord (packWord o.code lt.code ns nr) := by
  have hlane := LaneType.code_toNat_lt lt
  obtain ⟨hlw, hns, hnr, hrci⟩ := h
  simp only [ReservedWord, opcField_packWord, rsv1Field_packWord, rsv0Field_packWord, lwField_packWord,
    nsField_packWord, nrField_packWord]
  rintro (hopc | h1 | h0 | ⟨o', ho', hbad⟩)
  · exact hopc o rfl
  · exact h1 rfl
  · exact h0 rfl
  · obtain rfl := Opcode.code_injective ho'
    rcases hbad with ⟨-, h⟩ | ⟨hu, h⟩ | ⟨hu, h⟩ | ⟨hu, h⟩ | ⟨hu, h⟩
    · omega
    · exact h (hlw hu)
    · exact h (hns hu)
    · exact h (hnr hu)
    · have := hrci hu
      omega

/-- A word that is not reserved is laid out from an opcode and operands it admits. -/
theorem exists_packWord_of_not_reservedWord {v : Word} (h : ¬ ReservedWord v) :
    ∃ (o : Opcode) (lt : LaneType) (ns : BitVec 4) (nr : BitVec 5),
      Admits o lt ns nr ∧ v = packWord o.code lt.code ns nr := by
  simp only [ReservedWord, not_or, not_exists, not_and, not_forall, ne_eq, not_not, not_le] at h
  obtain ⟨⟨o, ho⟩, h1, h0, hfields⟩ := h
  obtain ⟨hlane, hlw, hns, hnr, hrci⟩ := hfields o ho
  have hlt : (lwField v).toNat < 7 := by
    cases hu : o.usesLw with
    | true => exact hlane hu
    | false => simp [hlw hu]
  obtain ⟨lt, hcode⟩ := LaneType.exists_code hlt
  exact ⟨o, lt, nsField v, nrField v, ⟨hcode ▸ hlw, hns, hnr, hrci⟩, by rw [← ho, hcode, packWord_fields v h1 h0]⟩

/-- A word that decodes to no command runs as Abort(E_RESERVED). -/
theorem runWord_of_reservedWord {v : Word} (hv : ReservedWord v) (s : State) :
    runWord v s = .next (s.takeAbort .reserved) := by
  unfold runWord
  cases hd : decode v with
  | error _ => rfl
  | ok i =>
    obtain ⟨o, lt, ns, nr, hadm, rfl, -⟩ := decode_ok hd
    exact absurd hv (not_reservedWord_packWord hadm)

/-- On a block that has not aborted a CMD write stores its word and runs it. -/
theorem writeCmd_of_not_anyAborted {s : State} (h : s.anyAborted = false) (v : Word) :
    writeCmd v s = runWord v (s.setCmd v) := by simp [writeCmd, h]

/-- The step of a CMD write on a block that has not aborted (R90). -/
theorem step_writeCmd {s : State} {u v : Nat} {rest : List HostEvent} (hp : s.pending = ⟨u, .writeReg 0 v⟩ :: rest)
    (ha : s.anyAborted = false) :
    step s = runWord (BitVec.ofNat 32 v) ((s.take ⟨u, .writeReg 0 v⟩ rest).setCmd (BitVec.ofNat 32 v)) := by
  rw [step_of_pending_cons hp]
  exact writeCmd_of_not_anyAborted (s := s.take ⟨u, .writeReg 0 v⟩ rest) ha _

/-- Settles O4: a reserved word is no laid-out word, so it does not decode; every other word is one, so it does. -/
theorem reservedWordAborts : Obligations.ReservedWordAborts := by
  refine fun v => ⟨fun hv s u rest hp ha => ?_, fun hv => ?_⟩
  · rw [step_writeCmd hp ha, BitVec.ofNat_toNat, BitVec.setWidth_eq, runWord_of_reservedWord hv]
  · obtain ⟨o, lt, ns, nr, hadm, rfl⟩ := exists_packWord_of_not_reservedWord hv
    exact ⟨_, Opcode.build_wf hadm.rci_lt lt ns, decode_packWord hadm⟩

end Sys2Proof.Machine
end

