-- ==== Sys2Proof/Proofs/HostActions.lean ====
section
/-! PROOFS. Proofs/HostActions.lean: what a step can do, said once for every host action, and the host's own accesses
(R27 to R33, R60, R72, R340, R341). -/

namespace Sys2Proof.Machine

/-! ### What a host action can answer -/

/-- What a host action can do to the state it answers with: run a command word; write BASE; write a read-only register,
which does nothing; read a register or a byte; store a byte; order the threads; reset the block. -/
inductive HostEffect (s : State) : HostAction → State → Prop where
  | command (v : Nat) (t : State) (run : runWord (BitVec.ofNat 32 v) (s.setCmd (BitVec.ofNat 32 v)) = .next t) :
      HostEffect s (.writeReg 0 v) t
  | baseWritten (v : Nat) : HostEffect s (.writeReg 1 v) (s.setBase v)
  | ignored (n v : Nat) (lo : 2 ≤ n) (hi : n ≤ 5) : HostEffect s (.writeReg n v) s
  | registerRead (n x : Nat) : HostEffect s (.readReg n) { s with readData := x }
  | byteStored (a : Nat) (b : Byte) (ha : a < 2 ^ s.host.addrWidth) :
      HostEffect s (.storeByte a b) { s with mem := s.mem.setByte a b }
  | byteLoaded (a x : Nat) : HostEffect s (.loadByte a) { s with readData := x }
  | joined : HostEffect s .join { s with window := [] }
  | reset : HostEffect s .reset s.resetBlock

theorem hostAction_effect {a : HostAction} {s t : State} (h : hostAction a s = .next t) : HostEffect s a t := by
  cases a with
  | writeReg n v =>
    match n with
    | 0 => exact .command v t (writeCmd_next h)
    | 1 => cases h; exact .baseWritten v
    | 2 | 3 | 4 | 5 => cases h; exact .ignored _ v (by decide) (by decide)
    | _ + 6 => cases h
  | readReg n =>
    simp only [hostAction, readReg] at h
    split at h <;> cases h
    exact .registerRead n _
  | storeByte a b =>
    simp only [hostAction, storeByte] at h
    split at h <;> cases h
    next ha => exact .byteStored a b ha
  | loadByte a =>
    simp only [hostAction, loadByte] at h
    split at h <;> cases h
    exact .byteLoaded a _
  | join => cases h; exact .joined
  | reset => cases h; exact .reset

/-- What a step can do: hold an idle block, or perform the first pending action. -/
theorem step_next {s t : State} (h : step s = .next t) :
    (s.pending = [] ∧ t = s) ∨
      ∃ e rest, s.pending = e :: rest ∧ HostEffect (s.take e rest) e.action t := by
  cases hp : s.pending with
  | nil =>
    rw [step_of_pending_nil hp, idle] at h
    split at h <;> cases h
    exact .inl ⟨rfl, rfl⟩
  | cons e rest =>
    rw [step_of_pending_cons hp] at h
    exact .inr ⟨e, rest, rfl, hostAction_effect h⟩

/-- What the step of a known first action can do. -/
theorem step_next_of_cons {s t : State} {e : HostEvent} {rest : List HostEvent} (hp : s.pending = e :: rest)
    (h : step s = .next t) : HostEffect (s.take e rest) e.action t :=
  hostAction_effect (step_of_pending_cons hp ▸ h)

/-! ### Reset, idling and the CMD write (R90, R340, R341) -/

/-- Settles O7: the reset values, read off the reset registers. -/
theorem resetActionValues : Obligations.ResetActionValues := by
  intro s u rest hp
  refine ⟨_, step_of_pending_cons hp, fun x => ?_, (by decide : Cap.reset.word = 0), rfl, rfl, rfl, rfl⟩
  have hregs : (((s.take ⟨u, .reset⟩ rest).resetBlock).regsOf x) = StreamRegs.reset := rfl
  rw [hregs]
  decide

theorem runWord_of_decode {v : Word} {i : Instr} (h : decode v = .ok i) (s : State) : runWord v s = exec i s := by
  simp only [runWord, h]

theorem decode_of_decodeTableWord {nbits w : Nat} {i : Instr} (h : decodeTableWord nbits w = some i) :
    decode (BitVec.ofNat 32 (w % 2 ^ nbits)) = .ok i := by
  unfold decodeTableWord at h
  split at h
  next j hj => rw [hj, Option.some.inj h]
  next => cases h

/-- Settles O10: a CMD write runs its word, `withFetchWord` puts one in front, and an idle block holds its state. -/
theorem stepRunsDecodedCommand : Obligations.StepRunsDecodedCommand := by
  refine ⟨fun s u v rest i hp ha hd => ?_, fun s nbits w i ha hd => ?_, fun s hp ha => ?_⟩
  · rw [step_writeCmd hp ha, runWord_of_decode hd]
  · have hput : (s.withFetchWord nbits w).pending = ⟨s.cur, .writeReg 0 (w % 2 ^ nbits)⟩ :: s.pending := rfl
    have htake : (s.withFetchWord nbits w).take ⟨s.cur, .writeReg 0 (w % 2 ^ nbits)⟩ s.pending = s := rfl
    rw [step_writeCmd hput ha, htake, runWord_of_decode (decode_of_decodeTableWord hd)]
  · simp [step_of_pending_nil hp, idle, ha]

/-! ### The host's accesses of registers (R27 to R33) -/

/-- Settles O12: one clause for each range of register numbers. -/
theorem hostRegisterWrites : Obligations.HostRegisterWrites := by
  intro s u v rest
  refine ⟨fun hp => ?_, fun n hlo hhi hp => ?_, fun n hn hp => ?_, fun n hn hp => ?_⟩
  · refine ⟨_, step_of_pending_cons hp, ?_, fun x hx => ?_, rfl, rfl, rfl, rfl⟩
    · exact State.setBase_regs (s.take ⟨u, .writeReg 1 v⟩ rest) v
    · exact State.setRegs_regsOf_ne (s.take ⟨u, .writeReg 1 v⟩ rest) _ hx
  · rw [step_of_pending_cons hp]
    match n, hlo, hhi with
    | 2, _, _ | 3, _, _ | 4, _, _ | 5, _, _ => rfl
  · rw [step_of_pending_cons hp]
    obtain ⟨k, rfl⟩ := Nat.exists_eq_add_of_le' hn
    rfl
  · rw [step_of_pending_cons hp]
    obtain ⟨k, rfl⟩ := Nat.exists_eq_add_of_le' hn
    rfl

/-- Settles O13: a read answers the register's word in `readData` and keeps the rest of the state. -/
theorem hostRegisterReads : Obligations.HostRegisterReads := by
  intro s u n rest hp
  rw [step_of_pending_cons hp]
  refine ⟨?_, ?_, ?_, ?_, ?_, ?_⟩ <;> rintro rfl <;> rfl

/-! ### The words of STATUS, CAP and SEL (R30 to R32) -/

/-- A field of a word, bit by bit. -/
theorem extractLsb'_eq_of_bits {w len : Nat} {v : BitVec w} {start : Nat} {field : BitVec len}
    (h : ∀ i < len, v.getLsbD (start + i) = field.getLsbD i) : v.extractLsb' start len = field :=
  BitVec.eq_of_getLsbD_eq fun i hi => by simp [hi, h i hi]

theorem Status.getLsbD_word (r : Status) (i : Nat) : r.word.getLsbD i =
    if i < 1 then (bit r.aborted).getLsbD i else if i < 4 then false else if i < 8 then r.ecode.getLsbD (i - 4)
    else false := by
  simp only [Status.word, BitVec.getLsbD_append]
  grind

theorem Cap.getLsbD_word (c : Cap) (i : Nat) : c.word.getLsbD i =
    if i < 1 then (bit c.probed).getLsbD i else if i < 2 then (bit c.sha3).getLsbD (i - 1)
    else if i < 3 then (bit c.avx2).getLsbD (i - 2) else false := by
  simp only [Cap.word, BitVec.getLsbD_append]
  grind

theorem Sel.getLsbD_word (x : Sel) (i : Nat) : x.word.getLsbD i =
    if i < 1 then (bit x.valid).getLsbD i else if i < 4 then false else if i < 8 then x.lane.code.getLsbD (i - 4)
    else if i < 13 then x.nr.getLsbD (i - 8) else if i < 16 then false
    else if i < 18 then x.backend.bits.getLsbD (i - 16) else false := by
  simp only [Sel.word, BitVec.getLsbD_append]
  grind

theorem getLsbD_bit_zero (b : Bool) : (bit b).getLsbD 0 = b := by cases b <;> rfl

theorem Status.word_fields (r : Status) : r.word.getLsbD 0 = r.aborted ∧ r.word.extractLsb' 1 3 = 0 ∧
    r.word.extractLsb' 4 4 = r.ecode ∧ r.word.extractLsb' 8 24 = 0 := by
  refine ⟨(r.getLsbD_word 0).trans (getLsbD_bit_zero _), ?_, ?_, ?_⟩ <;>
    exact extractLsb'_eq_of_bits fun i hi => by rw [r.getLsbD_word]; grind

theorem Cap.word_fields (c : Cap) : c.word.getLsbD 0 = c.probed ∧ c.word.getLsbD 1 = c.sha3 ∧
    c.word.getLsbD 2 = c.avx2 ∧ c.word.extractLsb' 3 29 = 0 := by
  refine ⟨(c.getLsbD_word 0).trans (getLsbD_bit_zero _), (c.getLsbD_word 1).trans (getLsbD_bit_zero _),
    (c.getLsbD_word 2).trans (getLsbD_bit_zero _), ?_⟩
  exact extractLsb'_eq_of_bits fun i hi => by rw [c.getLsbD_word]; grind

theorem Sel.word_fields (x : Sel) : x.word.getLsbD 0 = x.valid ∧ x.word.extractLsb' 1 3 = 0 ∧
    x.word.extractLsb' 4 4 = x.lane.code ∧ x.word.extractLsb' 8 5 = x.nr ∧ x.word.extractLsb' 13 3 = 0 ∧
    x.word.extractLsb' 16 2 = x.backend.bits ∧ x.word.extractLsb' 18 14 = 0 := by
  refine ⟨(x.getLsbD_word 0).trans (getLsbD_bit_zero _), ?_, ?_, ?_, ?_, ?_, ?_⟩ <;>
    exact extractLsb'_eq_of_bits fun i hi => by rw [x.getLsbD_word]; grind

/-- Settles O14: each word bit by bit, then the three tables of numbers row by row. -/
theorem registerWordLayouts : Obligations.RegisterWordLayouts := by
  refine ⟨Status.word_fields, Cap.word_fields, Sel.word_fields, fun c => ?_, fun lt => ?_, fun b => ?_⟩
  · cases c <;> decide
  · cases lt <;> decide
  · cases b <;> decide

/-! ### The host's own bytes (R60, R72) -/

theorem storeByte_exists {s : State} {a : Nat} (ha : a < 2 ^ s.host.addrWidth) (b : Byte) :
    storeByte a b s = .next { s with mem := s.mem.setByte a b } := if_pos ha

theorem loadByte_exists {s : State} {a : Nat} (ha : a < 2 ^ s.host.addrWidth) :
    loadByte a s = .next { s with readData := (s.mem.byteAt a).toNat } := if_pos ha

/-- Settles O60: the load after the store reads the byte stored, since nothing runs in between. -/
theorem hostStoreThenLoad : Obligations.HostStoreThenLoad := by
  intro s u x a b rest hp
  refine ⟨fun ha => ?_, fun ha => ?_⟩
  · have hstore := (step_of_pending_cons hp).trans
      (storeByte_exists (s := s.take ⟨u, .storeByte a b⟩ (⟨x, .loadByte a⟩ :: rest)) ha b)
    refine ⟨_, _, hstore, (step_of_pending_cons (e := ⟨x, .loadByte a⟩) rfl).trans (loadByte_exists ha), ?_, ?_,
      fun y hy => ?_, rfl, rfl⟩
    · exact congrArg BitVec.toNat (Memory.byteAt_setByte_self s.mem a b)
    · exact Memory.byteAt_setByte_self s.mem a b
    · exact Memory.byteAt_setByte_ne s.mem b hy
  · rw [step_of_pending_cons hp]
    exact if_neg (by simpa using ha)

end Sys2Proof.Machine
end

