-- ==== Sys2Proof/Proofs/CommandEffects.lean ====
section
/-! PROOFS. Proofs/CommandEffects.lean: what each command can do to the state it answers with, and who writes which register
and which byte (R29 to R36, R67, R69, R73, R311). -/

namespace Sys2Proof.Machine

/-! ### What a command can answer -/

/-- What command `i` can do: abort; complete on its buffer; and the effects of the three commands without one. It refines
`Effect` by the command. -/
inductive CommandEffect (s : State) : Instr → State → Prop where
  | aborted (i : Instr) (code : AbortCode) : CommandEffect s i (s.takeAbort code)
  | stored (i : Instr) (align size : Nat) (buffer : bufferOf s i = some (align, size)) :
      CommandEffect s i (s.commit s.regs.base size (storedBy s.regs.sel i s.mem s.regs.base))
  | probed : CommandEffect s .probe s.probe
  | selected (lt : LaneType) (nr : BitVec 5) :
      CommandEffect s (.dispatch lt nr) (s.probe.setSel ⟨true, lt, nr, select lt s.probe.cap⟩)
  | reported : CommandEffect s .pdegree (s.setResult (BitVec.ofNat 32 (degree s.regs.sel)))

theorem exec_commandEffect {i : Instr} {s t : State} (h : exec i s = .next t) : CommandEffect s i t := by
  cases hb : bufferOf s i with
  | some buffer =>
    rcases exec_next hb h with ⟨code, rfl⟩ | ⟨-, -, rfl⟩
    · exact .aborted i code
    · exact .stored i _ _ hb
  | none =>
    cases i with
    | probe => cases h; exact .probed
    | dispatch lt nr =>
      rcases require_next h with ⟨-, h⟩ | ⟨-, rfl⟩
      · rcases require_next h with ⟨-, h⟩ | ⟨-, rfl⟩
        · cases h; exact .selected lt nr
        · exact .aborted _ _
      · exact .aborted _ _
    | pdegree =>
      rcases require_next h with ⟨-, h⟩ | ⟨-, rfl⟩
      · cases h; exact .reported
      · exact .aborted _ _
    | _ => cases hb

/-! ### What every command keeps -/

section
variable {s t : State} (h : Effect s t)
include h

theorem Effect.cur : t.cur = s.cur := by cases h <;> simp
theorem Effect.host : t.host = s.host := by cases h <;> simp
theorem Effect.cmd : t.regs.cmd = s.regs.cmd := by cases h <;> simp
theorem Effect.base : t.regs.base = s.regs.base := by cases h <;> simp
theorem Effect.baseWritten : t.regs.baseWritten = s.regs.baseWritten := by cases h <;> simp

/-- A command leaves every other thread's registers alone (R311). -/
theorem Effect.regsOf_ne {u : Nat} (hu : u ≠ s.cur) : t.regsOf u = s.regsOf u := by
  cases h with
  | aborted code => exact s.setRegs_regsOf_ne _ hu
  | stored => exact s.commit_regsOf _ _ _ u
  | probed => exact s.probe_regsOf u
  | selected => exact s.probe.setRegs_regsOf_ne _ hu
  | reported => exact s.setRegs_regsOf_ne _ hu

/-- CAP after a command: as before, or what PROBE leaves (R260). -/
theorem Effect.cap : t.cap = s.cap ∨ t.cap = s.probe.cap := by cases h <;> simp

/-- The buffers on record after a command: those there were, and at most its own (R73). -/
theorem Effect.window {f : Footprint} (hf : f ∈ s.window) : f ∈ t.window := by cases h <;> simp [hf]

end

/-- Settles O50: over the effects of the commands, each register's update stands in its own command's. -/
theorem registersHaveTheirWriters : Obligations.RegistersHaveTheirWriters := by
  intro i s t h
  have heff := exec_effect h
  refine ⟨heff.cmd, heff.base, heff.baseWritten, ?_, ?_, ?_, ?_, fun u hu => heff.regsOf_ne hu, heff.host⟩
  all_goals cases exec_commandEffect h with
  | aborted _ code => simp
  | stored _ align size => simp
  | probed => simp [Instr.opcode]
  | selected lt nr => simp [Instr.opcode]
  | reported => simp [Instr.opcode]

/-- Settles O53: an abort and the commands without a buffer keep memory, and a store stays in its buffer. -/
theorem commandsWriteOnlyTheirBuffer : Obligations.CommandsWriteOnlyTheirBuffer := by
  intro i s t h
  cases exec_commandEffect h with
  | aborted _ code => simp
  | stored _ align size hb =>
    refine ⟨fun hnone => ?_, by simp, fun align' size' hb' a ha => ?_⟩
    · rw [hb] at hnone
      cases hnone
    · rw [hb] at hb'
      cases hb'
      exact (storedBy_within hb s.mem).outside a ha
  | probed => simp
  | selected lt nr => simp
  | reported => simp

/-! ### What every step keeps -/

/-- A CMD write leaves every other thread's registers alone. -/
theorem runWord_setCmd_regsOf_ne {s t : State} {v w : Word} (h : runWord w (s.setCmd v) = .next t) {u : Nat}
    (hu : u ≠ s.cur) : t.regsOf u = s.regsOf u :=
  ((runWord_effect h).regsOf_ne hu).trans (s.setCmd_regsOf_ne v hu)

/-- Settles O11: a command keeps CMD, so the word stored before it ran is what CMD holds after. -/
theorem cmdHoldsLastWord : Obligations.CmdHoldsLastWord := by
  intro s t u v rest hp hstep
  cases step_next_of_cons hp hstep with
  | command _ _ hrun =>
    have heff := runWord_effect hrun
    have hcur : t.cur = u := heff.cur
    constructor
    · have hcmd := heff.cmd
      rw [State.setCmd_regs, State.regs, hcur] at hcmd
      simpa using hcmd
    · exact fun x hx => congrArg StreamRegs.cmd (runWord_setCmd_regsOf_ne hrun hx)
  | ignored _ _ hlo _ => exact absurd hlo (by decide)

/-- Settles O52: a command and a write of BASE touch the running thread's registers alone; the other actions none. -/
theorem threadsOwnTheirRegisters : Obligations.ThreadsOwnTheirRegisters := by
  intro s t e rest hp hne hstep u hu
  have heff := step_next_of_cons hp hstep
  generalize e.action = a at hne heff
  cases heff with
  | command v _ hrun => exact runWord_setCmd_regsOf_ne hrun hu
  | baseWritten v => exact State.setRegs_regsOf_ne (s.take e rest) _ hu
  | ignored | registerRead | byteStored | byteLoaded | joined => rfl
  | reset => exact absurd rfl hne

theorem probe_cap_of_probed {s : State} (h : s.cap.probed = true) : s.probe.cap = s.cap := by simp [State.probe, h]

theorem probe_cap_of_not_probed {s : State} (h : s.cap.probed = false) : s.probe.cap = Cap.ofProbe s.host := by
  simp [State.probe, h]

@[simp] theorem probe_cap_probed (s : State) : s.probe.cap.probed = true := by
  cases h : s.cap.probed with
  | true => rw [probe_cap_of_probed h, h]
  | false => rw [probe_cap_of_not_probed h, Cap.ofProbe]

/-- CAP after a host action: as before, what PROBE leaves, or reset's (R31). -/
theorem HostEffect.cap {s t : State} {a : HostAction} (h : HostEffect s a t) :
    t.cap = s.cap ∨ t.cap = s.probe.cap ∨ (a = .reset ∧ t.cap = Cap.reset) := by
  cases h with
  | command v _ hrun =>
    rcases (runWord_effect hrun).cap with h | h
    · exact .inl h
    · exact .inr (.inl h)
  | baseWritten | ignored | registerRead | byteStored | byteLoaded | joined => exact .inl rfl
  | reset => exact .inr (.inr ⟨rfl, rfl⟩)

theorem HostEffect.host {s t : State} {a : HostAction} (h : HostEffect s a t) : t.host = s.host := by
  cases h with
  | command v _ hrun => exact (runWord_effect hrun).host
  | baseWritten | ignored | registerRead | byteStored | byteLoaded | joined | reset => rfl

/-- Settles O51: a step leaves CAP, probes it or resets it, and a probe of a probed CAP leaves it. -/
theorem capIsWriteOnce : Obligations.CapIsWriteOnce := by
  intro s t hstep
  rcases step_next hstep with ⟨-, rfl⟩ | ⟨e, rest, hp, heff⟩
  · exact ⟨rfl, fun _ _ => rfl, fun _ => .inl rfl⟩
  have hcap : t.cap = s.cap ∨ t.cap = s.probe.cap ∨ (e.action = .reset ∧ t.cap = Cap.reset) := heff.cap
  refine ⟨heff.host, fun hne hprobed => ?_, fun hprobed => ?_⟩
  · rcases hcap with h | h | ⟨hreset, -⟩
    · exact h
    · exact h.trans (probe_cap_of_probed hprobed)
    · exact absurd hreset (hne e rest hp)
  · rcases hcap with h | h | ⟨-, h⟩
    · exact .inl h
    · exact .inr (.inr (h.trans (probe_cap_of_not_probed hprobed)))
    · exact .inr (.inl h)

end Sys2Proof.Machine
end

