-- ==== Sys2Proof/Proofs/Invariant.lean ====
section
/-! PROOFS. Proofs/Invariant.lean: the invariant holds at power-on and every step keeps it (R29 to R32, R60, R66). -/

namespace Sys2Proof.Machine

/-! ### Registers that stay good -/

section
variable {host : HostParams} {c : Cap} {r : StreamRegs}

theorem StreamRegs.good_reset (host : HostParams) (c : Cap) : StreamRegs.Good host c StreamRegs.reset :=
  ⟨Nat.two_pow_pos _, fun _ => rfl, fun h => absurd h (by decide), fun _ => rfl, fun h => absurd h (by decide)⟩

/-- An abort records one of the codes 1 to 7 (R300). -/
theorem AbortCode.bits_range (code : AbortCode) : 1 ≤ code.bits.toNat ∧ code.bits.toNat ≤ 7 := by
  cases code <;> decide

theorem StreamRegs.Good.takeAbort (h : StreamRegs.Good host c r) (code : AbortCode) :
    StreamRegs.Good host c { r with status := Status.ofAbort code } := by
  obtain ⟨hbase, -, -, hsel⟩ := h
  exact ⟨hbase, fun ha => absurd ha (by simp [Status.ofAbort]), fun _ => code.bits_range, hsel⟩

theorem StreamRegs.Good.setBase (h : StreamRegs.Good host c r) (a : Nat) :
    StreamRegs.Good host c { r with base := a % 2 ^ host.addrWidth, baseWritten := true } := by
  obtain ⟨-, hrest⟩ := h
  exact ⟨Nat.mod_lt _ (Nat.two_pow_pos _), hrest⟩

/-- The selection DISPATCH records is one the invariant admits (R262). -/
theorem StreamRegs.Good.setSel (h : StreamRegs.Good host c r) (hc : c.probed = true) {lt : LaneType} {nr : BitVec 5}
    (hlo : 1 ≤ nr.toNat) (hhi : nr.toNat ≤ lt.maxR) :
    StreamRegs.Good host c { r with sel := ⟨true, lt, nr, select lt c⟩ } := by
  obtain ⟨hbase, hzero, hcode, -, -⟩ := h
  exact ⟨hbase, hzero, hcode, fun hv => absurd hv (by simp), fun _ => ⟨hc, hlo, hhi, rfl⟩⟩

/-- Without a selection the registers are good whatever CAP holds. -/
theorem StreamRegs.Good.of_not_valid {c' : Cap} (h : StreamRegs.Good host c r) (hv : r.sel.valid = false) :
    StreamRegs.Good host c' r := by
  obtain ⟨hbase, hzero, hcode, hnone, -⟩ := h
  exact ⟨hbase, hzero, hcode, hnone, fun hv' => absurd hv' (by simp [hv])⟩

/-- Under an unprobed CAP no thread has a selection. -/
theorem StreamRegs.Good.not_valid (h : StreamRegs.Good host c r) (hc : c.probed = false) : r.sel.valid = false := by
  obtain ⟨-, -, -, -, hsel⟩ := h
  cases hv : r.sel.valid with
  | false => rfl
  | true =>
    obtain ⟨hprobed, -⟩ := hsel hv
    simp [hc] at hprobed

end

/-! ### Updates of the state that keep the invariant -/

section
variable {s : State}

theorem State.Inv.regs_good (h : s.Inv) : StreamRegs.Good s.host s.cap s.regs := by
  obtain ⟨-, -, -, -, hregs, -⟩ := h
  exact hregs s.cur

theorem State.Inv.setRegs (h : s.Inv) {r : StreamRegs} (hr : StreamRegs.Good s.host s.cap r) : (s.setRegs r).Inv := by
  obtain ⟨hmem, haddr, hstreams, hcap, hregs, hwindow⟩ := h
  refine ⟨hmem, haddr, Sparse.wf_put _ hstreams _ _, hcap, fun u => ?_, hwindow⟩
  rw [State.setRegs_regsOf]
  split
  · exact hr
  · exact hregs u

theorem State.Inv.takeAbort (h : s.Inv) (code : AbortCode) : (s.takeAbort code).Inv :=
  h.setRegs (h.regs_good.takeAbort code)

theorem State.Inv.setCmd (h : s.Inv) (v : Word) : (s.setCmd v).Inv := h.setRegs h.regs_good

theorem State.Inv.setResult (h : s.Inv) (v : Word) : (s.setResult v).Inv := h.setRegs h.regs_good

theorem State.Inv.setBase (h : s.Inv) (a : Nat) : (s.setBase a).Inv := h.setRegs (h.regs_good.setBase a)

/-- A memory whose changes lie in the address space keeps the invariant. -/
theorem State.Inv.setMem (h : s.Inv) {m : Memory} (hm : m.wf = true)
    (hin : ∀ e ∈ m, e.1 < 2 ^ s.host.addrWidth) : ({ s with mem := m } : State).Inv := by
  obtain ⟨-, -, hrest⟩ := h
  exact ⟨hm, hin, hrest⟩

theorem State.Inv.setWindow (h : s.Inv) {l : List Footprint} (hl : ∀ f ∈ l, f.base + f.size ≤ 2 ^ s.host.addrWidth) :
    ({ s with window := l } : State).Inv := by
  obtain ⟨hmem, haddr, hstreams, hcap, hregs, -⟩ := h
  exact ⟨hmem, haddr, hstreams, hcap, hregs, hl⟩

theorem State.Inv.noteBuffer (h : s.Inv) {base size : Nat} (hb : base + size ≤ 2 ^ s.host.addrWidth) :
    (s.noteBuffer base size).Inv := by
  refine State.Inv.setWindow h fun f hf => ?_
  obtain ⟨-, -, -, -, -, hwindow⟩ := h
  rcases (s.mem_noteBuffer_window base size f).mp hf with rfl | hf
  · exact hb
  · exact hwindow f hf

theorem State.Inv.commit (h : s.Inv) {base size : Nat} {m : Memory} (hb : base + size ≤ 2 ^ s.host.addrWidth)
    (hm : StoredWithin s.mem m base size) : (s.commit base size m).Inv := by
  have hmem : ({ s with mem := m } : State).Inv := by
    obtain ⟨hwf, haddr, -⟩ := id h
    refine h.setMem (hm.wf hwf) fun e he => ?_
    rcases hm.listed e he with hin | hold
    · omega
    · exact haddr e hold
  exact hmem.noteBuffer hb

/-- A probe keeps the invariant: before it no thread has a selection that CAP could contradict. -/
theorem State.Inv.probe (h : s.Inv) : s.probe.Inv := by
  obtain ⟨hmem, haddr, hstreams, hcap, hregs, hwindow⟩ := h
  have hgood : Cap.Good s.host s.probe.cap ∧ ∀ u, StreamRegs.Good s.host s.probe.cap (s.regsOf u) := by
    cases hp : s.cap.probed with
    | true => rw [probe_cap_of_probed hp]; exact ⟨hcap, hregs⟩
    | false =>
      rw [probe_cap_of_not_probed hp]
      exact ⟨rfl, fun u => (hregs u).of_not_valid ((hregs u).not_valid hp)⟩
  exact ⟨hmem, haddr, hstreams, hgood.1, hgood.2, hwindow⟩

theorem State.inv_resetOn (host : HostParams) {m : Memory} (hm : m.wf = true) (hin : ∀ e ∈ m, e.1 < 2 ^ host.addrWidth) :
    (State.resetOn host m).Inv :=
  ⟨hm, hin, rfl, rfl, fun _ => StreamRegs.good_reset _ _, fun _ hf => absurd hf (by simp [State.resetOn])⟩

theorem State.Inv.resetBlock (h : s.Inv) : s.resetBlock.Inv := by
  obtain ⟨hmem, haddr, -⟩ := h
  exact ⟨hmem, haddr, rfl, rfl, fun _ => StreamRegs.good_reset _ _, fun _ hf => absurd hf (by simp)⟩

/-! ### Commands and steps -/

theorem State.Inv.effect {t : State} (h : s.Inv) (heff : Effect s t) : t.Inv := by
  cases heff with
  | aborted code => exact h.takeAbort code
  | stored align size m ready within =>
    obtain ⟨-, -, hb, -⟩ := ready
    exact h.commit hb within
  | probed => exact h.probe
  | selected lt nr lo hi => exact h.probe.setRegs (h.probe.regs_good.setSel (probe_cap_probed s) lo hi)
  | reported => exact h.setResult _

theorem State.Inv.hostEffect {t : State} {a : HostAction} (h : s.Inv) (heff : HostEffect s a t) : t.Inv := by
  cases heff with
  | command v _ hrun => exact (h.setCmd _).effect (runWord_effect hrun)
  | baseWritten v => exact h.setBase v
  | ignored | registerRead | byteLoaded => exact h
  | byteStored a b ha =>
    obtain ⟨hwf, haddr, -⟩ := id h
    refine h.setMem (Memory.wf_setByte hwf a b) fun e he => ?_
    rcases Sparse.mem_put he with rfl | hold
    · exact ha
    · exact haddr e hold
  | joined => exact h.setWindow fun f hf => absurd hf (by simp)
  | reset => exact h.resetBlock

end

/-- Settles O8: at power-on every register is at its reset value and nothing is on record. -/
theorem invariantHoldsAtReset : Obligations.InvariantHoldsAtReset :=
  ⟨fun host _ hm hin => State.inv_resetOn host hm hin,
    State.inv_resetOn Config.resetHost rfl fun _ he => absurd he (by simp)⟩

/-- Settles O9: an idle step holds the state, and every host action keeps the invariant, a command by its effect. -/
theorem stepKeepsInvariant : Obligations.StepKeepsInvariant := by
  intro s t h hstep
  rcases step_next hstep with ⟨-, rfl⟩ | ⟨e, rest, -, heff⟩
  · exact h
  · have htake : (s.take e rest).Inv := h
    exact htake.hostEffect heff

end Sys2Proof.Machine
end

