-- ==== Sys2Proof/Proofs/Selection.lean ====
section
/-! PROOFS. Proofs/Selection.lean: PROBE, DISPATCH and PDEGREE complete with their values and change nothing else, and a
selection made again after a reset is the same (R260 to R264, R342). -/

namespace Sys2Proof.Machine

theorem HostParams.hasArmSha3_iff (host : HostParams) : host.hasArmSha3 = true ↔ host.arch = .aarch64 ∧ host.sha3 = true := by
  simp [HostParams.hasArmSha3]

theorem HostParams.hasAvx2_iff (host : HostParams) : host.hasAvx2 = true ↔ host.arch = .x86_64 ∧ host.avx2 = true := by
  simp [HostParams.hasAvx2]

/-- An update of the running thread's registers, whatever CAP becomes, is all that such a command changes. -/
theorem registersOnly_setRegs {s p : State} (h : RegistersOnly s p) (r : StreamRegs) : RegistersOnly s (p.setRegs r) := by
  obtain ⟨hhost, hmem, hcur, hpending, hwindow, hread, hregs⟩ := h
  exact ⟨hhost, hmem, hcur, hpending, hwindow, hread,
    fun u hu => (p.setRegs_regsOf_ne r (hcur ▸ hu)).trans (hregs u hu)⟩

theorem registersOnly_refl (s : State) : RegistersOnly s s := ⟨rfl, rfl, rfl, rfl, rfl, rfl, fun _ _ => rfl⟩

theorem registersOnly_probe (s : State) : RegistersOnly s s.probe := ⟨rfl, rfl, rfl, rfl, rfl, rfl, fun _ _ => rfl⟩

/-- Settles O41: an unprobed CAP takes the host's token, a probed one stays. -/
theorem probeCompletes : Obligations.ProbeCompletes := by
  refine fun s => ⟨s.probe, rfl, fun hp => ?_, probe_cap_of_probed, rfl, registersOnly_probe s⟩
  rw [probe_cap_of_not_probed hp]
  exact ⟨rfl, HostParams.hasArmSha3_iff s.host, HostParams.hasAvx2_iff s.host⟩

/-! ### DISPATCH (R261, R262) -/

theorem exec_dispatch {lt : LaneType} {nr : BitVec 5} (hlo : 1 ≤ nr.toNat) (hhi : nr.toNat ≤ lt.maxR) (s : State) :
    exec (.dispatch lt nr) s = .next (s.probe.setSel ⟨true, lt, nr, select lt s.probe.cap⟩) := by
  have hmax := LaneType_maxR_le lt
  exact (require_of (decide_eq_true (by omega)) _ _ _).trans (require_of (decide_eq_true ⟨by omega, hhi⟩) _ _ _)

/-- The table of R261. -/
theorem select_table (lt : LaneType) (c : Cap) :
    (lt = .w64 → c.sha3 = true → select lt c = .armP1) ∧ (lt = .v2 → c.sha3 = true → select lt c = .armP2) ∧
    (lt = .v4 → c.avx2 = true → select lt c = .avx2P4) ∧
    (¬ (lt = .w64 ∧ c.sha3 = true) → ¬ (lt = .v2 ∧ c.sha3 = true) → ¬ (lt = .v4 ∧ c.avx2 = true) →
      select lt c = .portable) := by
  cases lt <;> simp [select]

/-- Settles O42: the probe, then the one update of SEL, whose backend is the table's. -/
theorem dispatchCompletes : Obligations.DispatchCompletes := by
  intro s lt nr hlo _ hhi
  obtain ⟨hw64, hv2, hv4, hrest⟩ := select_table lt s.probe.cap
  refine ⟨_, exec_dispatch hlo hhi s, ⟨s.probe, rfl, rfl⟩, ?_⟩
  simp only [State.setSel_regs, State.setSel_cap, State.probe_regs, true_and]
  exact ⟨hw64, hv2, hv4, hrest, registersOnly_setRegs (registersOnly_probe s) _⟩

/-! ### PDEGREE (R263, R264) -/

theorem exec_pdegree {s : State} (h : s.regs.sel.valid = true) :
    exec .pdegree s = .next (s.setResult (BitVec.ofNat 32 (degree s.regs.sel))) := require_of h _ _ _

theorem degree_table (x : Sel) : (x.backend = .portable → degree x = x.lane.elems) ∧
    (x.backend = .armP1 ∨ x.backend = .armP2 → degree x = 2) ∧ (x.backend = .avx2P4 → degree x = 4) := by
  obtain ⟨valid, lane, nr, backend⟩ := x
  cases backend <;> simp [degree]

/-- A lane's state count fits the register RESULT. -/
theorem LaneType_elems_toNat_ofNat (lt : LaneType) : (BitVec.ofNat 32 lt.elems).toNat = lt.elems := by cases lt <;> rfl

/-- Settles O43: the one update of RESULT, with the degree of R263's table. -/
theorem pdegreeCompletes : Obligations.PdegreeCompletes := by
  intro s hv
  obtain ⟨hportable, harm, havx2⟩ := degree_table s.regs.sel
  refine ⟨_, exec_pdegree hv, ?_⟩
  simp only [State.setResult_regs, State.setResult_cap, true_and]
  refine ⟨fun hb => ?_, fun hb => ?_, fun hb => ?_, registersOnly_setRegs (registersOnly_refl s) _⟩
  · rw [hportable hb, LaneType_elems_toNat_ofNat]
  · rw [harm hb]; rfl
  · rw [havx2 hb]; rfl

/-! ### A selection made again (R342) -/

/-- Under the invariant a selection is the one that DISPATCH of its lane type and round count makes from the host's probe. -/
theorem State.Inv.selection {s : State} (h : s.Inv) (hv : s.regs.sel.valid = true) :
    s.cap = Cap.ofProbe s.host ∧ 1 ≤ s.regs.sel.nr.toNat ∧ s.regs.sel.nr.toNat ≤ s.regs.sel.lane.maxR ∧
      s.regs.sel = ⟨true, s.regs.sel.lane, s.regs.sel.nr, select s.regs.sel.lane s.cap⟩ := by
  obtain ⟨-, -, -, -, hsel⟩ := h.regs_good
  obtain ⟨-, -, -, hcap, -⟩ := h
  obtain ⟨hprobed, hlo, hhi, hbackend⟩ := hsel hv
  have hsame : s.regs.sel = ⟨s.regs.sel.valid, s.regs.sel.lane, s.regs.sel.nr, s.regs.sel.backend⟩ := rfl
  refine ⟨?_, hlo, hhi, by rw [← hbackend, ← hv]⟩
  rwa [Cap.Good, hprobed, if_pos rfl] at hcap

/-- Settles O57: after a reset CAP is unprobed, so DISPATCH writes the host's token and the selection it gives again. -/
theorem reprobeGivesSameSelection : Obligations.ReprobeGivesSameSelection := by
  intro s hinv hv
  obtain ⟨hcap, hlo, hhi, hsel⟩ := hinv.selection hv
  have hprobe : s.resetBlock.probe.cap = s.cap := (probe_cap_of_not_probed rfl).trans hcap.symm
  refine ⟨_, exec_dispatch hlo hhi _, ?_, hprobe⟩
  rw [State.setSel_regs, hprobe]
  exact hsel.symm

end Sys2Proof.Machine
end

