-- ==== Sys2Proof/Proofs/Permutation.lean ====
section
/-! PROOFS. Proofs/Permutation.lean: the look-up tables, the fixed points and corner cases of the stages, and the window of
round constants (R22 to R24, R131, R139, R170 to R175). -/

namespace Sys2Proof.Machine

/-! ### Tables and lane-type parameters -/

/-- Settles O15: the listed tables evaluated against the LFSR, the triangular numbers and the walk. -/
theorem lookupTablesRegenerate : Obligations.LookupTablesRegenerate := by
  unfold Obligations.LookupTablesRegenerate
  decide

theorem lane_type_parameters (lt : LaneType) : (lt, lt.width, lt.elems, lt.maxR, lt.align, lt.bufferBytes) ∈
    [(LaneType.w8, 8, 1, 18, 1, 25), (.w16, 16, 1, 20, 2, 50), (.w32, 32, 1, 22, 4, 100), (.w64, 64, 1, 24, 8, 200),
      (.v2, 64, 2, 24, 8, 400), (.v4, 64, 4, 24, 8, 800), (.v8, 64, 8, 24, 8, 1600)] := by
  cases lt <;> decide

/-! ### The zero state through the stages -/

section
variable {w n : Nat}

theorem laneXor_bcast_zero (a : Lane w n) : laneXor a (bcast n 0) = a := Vector.ext fun j hj => by simp

theorem bcast_zero_laneXor (a : Lane w n) : laneXor (bcast n 0) a = a := Vector.ext fun j hj => by simp

theorem laneRotl_bcast_zero (k : Nat) : laneRotl (bcast n (0 : BitVec w)) k = bcast n 0 :=
  Vector.ext fun j hj => by simp

theorem laneAnd_bcast_zero (a : Lane w n) : laneAnd a (bcast n 0) = bcast n 0 := Vector.ext fun j hj => by simp

/-- A state whose column parities are zero is a fixed point of theta (R131). -/
theorem theta_of_columnParities_zero {S : KState w n} (h : ∀ x : Fin 5, (columnParities S)[x] = bcast n 0) :
    theta S = S := by
  refine ext_laneAt fun x y => ?_
  have heffect : (thetaEffect (columnParities S))[x] = bcast n 0 := by
    rw [thetaEffect_get, h, h, laneRotl_bcast_zero, laneXor_bcast_zero]
  rw [laneAt_theta, heffect, laneXor_bcast_zero]

/-- Settles O17: with zero parities the effect of every column is zero. -/
theorem thetaFixesZeroParity : Obligations.ThetaFixesZeroParity := fun _ _ _ h => theta_of_columnParities_zero h

/-- The all-zero state. -/
def zeroState (w n : Nat) : KState w n := Vector.replicate 25 (bcast n 0)

@[simp] theorem laneAt_zeroState (x y : Fin 5) : laneAt (zeroState w n) x y = bcast n 0 :=
  Vector.getElem_replicate _

theorem theta_zeroState : theta (zeroState w n) = zeroState w n :=
  theta_of_columnParities_zero fun x => by simp only [columnParities_get, laneAt_zeroState, laneXor_bcast_zero]

/-- Lane (x, y) of the pass comes from the lane that pi takes there (R25). -/
theorem laneAt_rhopi_source (S : KState w n) (x y : Fin 5) : laneAt (rhopi S) x y =
    laneRotl (laneAt S (piSource x y).1 (piSource x y).2) (rhoPos (piSource x y).1 (piSource x y).2) := by
  have hback : 2 * (piSource x y).1 + 3 * (piSource x y).2 = y := by
    simp only [piSource]
    decide +revert
  have hmove := laneAt_rhopi S (piSource x y).1 (piSource x y).2
  rwa [hback] at hmove

theorem rhopi_zeroState : rhopi (zeroState w n) = zeroState w n :=
  ext_laneAt fun x y => by rw [laneAt_rhopi_source, laneAt_zeroState, laneAt_zeroState, laneRotl_bcast_zero]

theorem chi_zeroState : chi (zeroState w n) = zeroState w n :=
  ext_laneAt fun x y => by simp only [laneAt_chi, laneAt_zeroState, laneAnd_bcast_zero, laneXor_bcast_zero]

/-- A round on the all-zero state is iota on it (R139). -/
theorem keccakRound_zeroState (i : Nat) :
    keccakRound i (zeroState w n) = (zeroState w n).set 0 (bcast n (trunc w (rc i))) := by
  have hlane : (zeroState w n)[0] = bcast n 0 := Vector.getElem_replicate _
  rw [keccakRound, theta_zeroState, rhopi_zeroState, chi_zeroState, iota, hlane, bcast_zero_laneXor]

/-- Settles O21: theta, rho-pi and chi keep the zero state, and iota writes its constant. -/
theorem roundOnZero : Obligations.RoundOnZero := fun _ _ i => keccakRound_zeroState i

/-! ### The window of round constants (R172) -/

theorem roundWindow_zero (maxR : Nat) : roundWindow maxR 0 = [] := by simp [roundWindow, forRange]

/-- One round more puts the constant just below the window in front. -/
theorem roundWindow_succ {maxR nr : Nat} (h : nr < maxR) :
    roundWindow maxR (nr + 1) = (maxR - (nr + 1)) :: roundWindow maxR nr := by
  have hlen : maxR - (maxR - (nr + 1)) = (maxR - (maxR - nr)) + 1 := by omega
  have hnext : maxR - (nr + 1) + 1 = maxR - nr := by omega
  rw [roundWindow, forRange, hlen, List.range'_succ, hnext, roundWindow, forRange]

theorem permute_zero (maxR : Nat) (S : KState w n) : permute maxR 0 S = S := by
  rw [permute, roundWindow_zero, rounds_nil]

theorem permute_succ {maxR nr : Nat} (h : nr < maxR) (S : KState w n) :
    permute maxR (nr + 1) S = permute maxR nr (keccakRound (maxR - (nr + 1)) S) := by
  rw [permute, roundWindow_succ h, rounds_cons, permute]

end

/-- Settles O22: the window of no rounds is empty, and one round more is one constant in front. -/
theorem permuteAddsOldestRound : Obligations.PermuteAddsOldestRound :=
  fun _ _ maxR S => ⟨permute_zero maxR S, fun _ h => permute_succ h S⟩

/-- One round of a permutation is the round with the last constant of its schedule (C1). -/
theorem permute_one {w n maxR : Nat} (h : 0 < maxR) (S : KState w n) : permute maxR 1 S = keccakRound (maxR - 1) S :=
  (permute_succ h S).trans (permute_zero _ _)

/-- Settles O23: the parameters by lane type, and the one round on the zero state, whose constant is at maxR - 1. -/
theorem oneRoundUsesLastNativeConstant : Obligations.OneRoundUsesLastNativeConstant := by
  refine ⟨lane_type_parameters, fun lt i hi => ?_⟩
  have hlast : lt.maxR = i + 1 := by cases lt <;> simp_all [LaneType.maxR]
  rw [hlast, permute_one (Nat.succ_pos i)]
  exact keccakRound_zeroState i

/-! ### Narrow and wide views of a buffer (R61) -/

/-- Byte `i` of a little-endian value is the byte at address `a + i`. -/
theorem memRead_byte (m : Memory) : ∀ (n a i : Nat), i < n → memRead m a n / 256 ^ i % 256 = (m.byteAt (a + i)).toNat
  | 0, _, _, h => absurd h (by omega)
  | n + 1, a, i, h => by
    have hb : (m.byteAt a).toNat < 256 := (m.byteAt a).isLt
    cases i with
    | zero => simp only [memRead, Nat.pow_zero, Nat.div_one, Nat.add_zero]; omega
    | succ i =>
      have hrest : memRead m a (n + 1) / 256 = memRead m (a + 1) n := by simp only [memRead]; omega
      rw [Nat.pow_succ', ← Nat.div_div_eq_div_mul, hrest, memRead_byte m n (a + 1) i (by omega)]
      congr 2
      omega

theorem memRead_one (m : Memory) (a : Nat) : memRead m a 1 = (m.byteAt a).toNat := by simp [memRead]

/-- Byte `i` of 64-bit element `k` is 8-bit element `8k + i` of the same buffer. -/
theorem extractLsb'_loadElem (m : Memory) (a k : Nat) {i : Nat} (hi : i < 8) :
    (loadElem m a 64 k).extractLsb' (8 * i) 8 = loadElem m a 8 (8 * k + i) := by
  apply BitVec.eq_of_toNat_eq
  have hbyte := memRead_byte m 8 (a + 8 * k) i hi
  rw [BitVec.extractLsb'_toNat, toNat_loadElem, toNat_loadElem, Nat.shiftRight_eq_div_pow, Nat.pow_mul]
  simpa [memRead_one, Nat.add_assoc] using hbyte

/-- Settles O59: both sides are elements of the one buffer. -/
theorem wideLaneReadsNarrowLanes : Obligations.WideLaneReadsNarrowLanes := by
  intro m a k i hk hi
  simpa only [loadState_get, Nat.one_mul, Nat.add_zero, Nat.zero_lt_one] using extractLsb'_loadElem m a k hi

end Sys2Proof.Machine
end

