-- ==== Sys2Proof/Proofs/Completions.lean ====
section
/-! PROOFS. Proofs/Completions.lean: every memory command completes on a ready buffer with its result there and nothing else
changed (R129 to R139, R171, R192, R193, R221, R222, R241, R265). -/

namespace Sys2Proof.Machine

/-- A completed memory command changes its buffer alone. -/
theorem bufferOnly_commit {s : State} {m : Memory} {size : Nat} (h : StoredWithin s.mem m s.regs.base size) :
    BufferOnly s (s.commit s.regs.base size m) size :=
  ⟨rfl, rfl, rfl, rfl, rfl, rfl, h.outside⟩

/-! ### Commands on one state of their lane type (R129) -/

section
variable {s : State} {i : Instr} {lt : LaneType}

/-- A command that stored `S` at BASE left it as the operand there. -/
theorem operand_commit_storeState (n : Nat) (S : KState lt.width lt.elems) :
    (s.commit s.regs.base n (storeState s.mem s.regs.base S)).operand lt = S :=
  loadState_storeState (LaneType_width_bytes lt) _ _ _

/-- A command that applies a function to the state at BASE completes with it and changes its buffer alone. -/
theorem Applies.completes {f : KState lt.width lt.elems → KState lt.width lt.elems} (hi : Applies lt i f)
    (hr : s.ReadyFor lt) :
    ∃ t, exec i s = .next t ∧ t.operand lt = f (s.operand lt) ∧ BufferOnly s t lt.bufferBytes :=
  ⟨_, hi s hr, operand_commit_storeState _ _, bufferOnly_commit (storeState_within lt _ _ _)⟩

end

/-- Settles O26: THETA applies theta. -/
theorem thetaCompletes : Obligations.ThetaCompletes := fun _ _ _ hns hr => (theta_applies hns).completes hr

/-- Settles O27: RHOPI applies rho-pi. -/
theorem rhopiCompletes : Obligations.RhopiCompletes := fun _ _ _ hns hr => (rhopi_applies hns).completes hr

/-- Settles O28: CHI applies chi. -/
theorem chiCompletes : Obligations.ChiCompletes := fun _ _ _ hns hr => (chi_applies hns).completes hr

/-- Settles O29: IOTA applies iota with its constant. -/
theorem iotaCompletes : Obligations.IotaCompletes :=
  fun _ _ _ _ hns hrci hr => (iota_applies hns hrci).completes hr

/-- Settles O30: ROUND applies the round, which is its four stages in order. -/
theorem roundCompletes : Obligations.RoundCompletes :=
  fun _ _ _ _ hns hrci hr => (round_applies hns hrci).completes hr

/-- Settles O31: PERMUTE applies the permutation. -/
theorem permuteCompletes : Obligations.PermuteCompletes :=
  fun _ _ _ _ hns hnr hr => (permute_applies hns hnr).completes hr

theorem iota_iota {w n : Nat} (i : Nat) (S : KState w n) : iota i (iota i S) = S := by
  refine Vector.ext fun k hk => ?_
  by_cases hzero : k = 0
  · subst hzero
    rw [iota_lane_zero, iota_lane_zero]
    exact Vector.ext fun j hj => by simp
  · rw [iota_lane_of_ne_zero i _ hk hzero, iota_lane_of_ne_zero i _ hk hzero]

/-- Settles O58: the two commands leave iota of iota of the operand in the buffer, which is what it held. -/
theorem iotaTwiceRestoresMemory : Obligations.IotaTwiceRestoresMemory := by
  intro s lt ns rci hm hns hrci hr
  have happ := iota_applies hns hrci
  obtain ⟨t, ht, hfirst⟩ := happ.first hr
  obtain ⟨t', ht', hsecond⟩ := happ.later hm hfirst
  refine ⟨t', by rw [runAll_cons ht, runAll_cons ht', runAll], ?_⟩
  rw [hsecond.mem, iota_iota]
  exact storeState_loadState hm _ _ _

/-! ### PERMUTE_SEL (R265, R266) -/

theorem exec_permuteSel {s : State} {ns : BitVec 4} (hv : s.regs.sel.valid = true)
    (hns : ns.toNat = s.regs.sel.lane.elems) (hr : s.ReadyFor s.regs.sel.lane) :
    exec (.permuteSel ns) s = .next (s.commit s.regs.base s.regs.sel.lane.bufferBytes
      (storedBy s.regs.sel (.permuteSel ns) s.mem s.regs.base)) :=
  exec_completes rfl (by simp [preChecks, nsIsElems, hv, hns]) hr

/-- Settles O44: the selected permutation of the operand, stored over it. -/
theorem permuteSelCompletes : Obligations.PermuteSelCompletes :=
  fun _ _ hv _ hns hr => ⟨_, exec_permuteSel hv hns hr, operand_commit_storeState _ _,
    bufferOnly_commit (storeState_within _ _ _ _)⟩

/-- What PERMUTE_SEL stores does not depend on SEL.BACKEND. -/
theorem storedBy_backend (x : Sel) (b : Backend) (ns : BitVec 4) (m : Memory) (base : Nat) :
    storedBy { x with backend := b } (.permuteSel ns) m base = storedBy x (.permuteSel ns) m base := rfl

/-- Settles O45: the command completes on both states, and what it stores is made of SEL.LW, SEL.NR, BASE and memory. -/
theorem backendChangesNoResultBit : Obligations.BackendChangesNoResultBit := by
  intro s ns b c arch sha3 avx2 hv hns hr
  have hregs := State.setSel_regs { s with cap := c, host := { s.host with arch := arch, sha3 := sha3, avx2 := avx2 } }
    { s.regs.sel with backend := b }
  refine ⟨_, _, exec_permuteSel hv hns hr, exec_permuteSel ?_ ?_ ?_, ?_⟩
  · rw [hregs]; exact hv
  · rw [hregs]; exact hns
  · rw [State.ReadyFor, State.Ready, hregs]; exact hr
  · rw [State.commit_mem, State.commit_mem, hregs]
    exact storedBy_backend s.regs.sel b ns s.mem s.regs.base

/-! ### PACK and UNPACK (R192, R193) -/

theorem memRead_packed (m : Memory) (base : Nat) {n k j : Nat} (hk : k < 25) (hj : j < n) :
    memRead m (base + 8 * (n * k + j)) 8 = ((loadState m base 64 n)[k][j]).toNat := by
  rw [loadState_get _ _ _ _ _ _ hk hj, toNat_loadElem]

theorem memRead_stateMajor (m : Memory) (base : Nat) {n k j : Nat} (hk : k < 25) (hj : j < n) :
    memRead m (base + 8 * (25 * j + k)) 8 = ((loadStates m base n)[j][k][0]).toNat := by
  rw [loadStates_get _ _ _ _ _ hk hj, toNat_loadElem]

theorem packStates_get {n k j : Nat} (T : KStates n) (hk : k < 25) (hj : j < n) : (packStates T)[k][j] = T[j][k][0] := by
  simp [packStates]

theorem unpackStates_get {n k j : Nat} (V : KState 64 n) (hk : k < 25) (hj : j < n) :
    (unpackStates V)[j][k][0] = V[k][j] := by
  simp [unpackStates]

/-- Settles O32: the packed state stored is read back word by word. -/
theorem packCompletes : Obligations.PackCompletes := by
  intro s ns hns hr
  refine ⟨_, exec_pack (decide_eq_true hns) hr, fun k j hk hj => ?_, bufferOnly_commit (storeVec_within _ _ _)⟩
  rw [memRead_packed _ _ hk hj, memRead_stateMajor _ _ hk hj, State.commit_mem, loadState_storeState rfl,
    packStates_get _ hk hj]

/-- Settles O33: the states stored are read back word by word. -/
theorem unpackCompletes : Obligations.UnpackCompletes := by
  intro s ns hns hr
  refine ⟨_, exec_unpack (decide_eq_true hns) hr, fun k j hk hj => ?_, bufferOnly_commit (storeStates_within _ _ _)⟩
  rw [memRead_packed _ _ hk hj, memRead_stateMajor _ _ hk hj, State.commit_mem, loadStates_storeStates,
    unpackStates_get _ hk hj]

/-! ### The wrappers (R221, R222, R241) -/

/-- The checks of a wrapper hold for its state count, a round count from 1 to 24 and a host with the extension. -/
theorem wrapperPreChecks_hold {count : Nat} {ns : BitVec 4} {nr : BitVec 5} {capable : Bool} (hns : ns.toNat = count)
    (hlo : 1 ≤ nr.toNat) (hhi : nr.toNat ≤ 24) (hc : capable = true) :
    ∀ p ∈ wrapperPreChecks count ns nr capable, p.1 = true := by
  have hne : nr.toNat ≠ 0 := by omega
  simp [wrapperPreChecks, hns, hne, hhi, hc]

/-- Settles O36: the first result of the kernel is stored; the dummy's is dropped. -/
theorem armP1Completes : Obligations.ArmP1Completes := by
  intro s ns nr hns hlo hhi harch hsha3 hr
  have hext := (HostParams.hasArmSha3_iff s.host).mpr ⟨harch, hsha3⟩
  refine ⟨_, exec_completes rfl (wrapperPreChecks_hold hns hlo hhi hext) hr, ?_, bufferOnly_commit (storeStates_within _ _ _)⟩
  rw [State.commit_mem, storedBy, loadStates_storeStates]
  rfl

/-- Settles O37: both results of the kernel are stored. -/
theorem armP2Completes : Obligations.ArmP2Completes := by
  intro s ns nr hns hlo hhi harch hsha3 hr
  have hext := (HostParams.hasArmSha3_iff s.host).mpr ⟨harch, hsha3⟩
  refine ⟨_, exec_completes rfl (wrapperPreChecks_hold hns hlo hhi hext) hr, ?_, bufferOnly_commit (storeStates_within _ _ _)⟩
  rw [State.commit_mem, storedBy, loadStates_storeStates]
  intro j hj
  match j, hj with
  | 0, _ | 1, _ => rfl

/-- Settles O38: the four results of the kernel are stored. -/
theorem avx2P4Completes : Obligations.Avx2P4Completes := by
  intro s ns nr hns hlo hhi harch havx2 hr
  have hext := (HostParams.hasAvx2_iff s.host).mpr ⟨harch, havx2⟩
  refine ⟨_, exec_completes rfl (wrapperPreChecks_hold hns hlo hhi hext) hr, ?_, bufferOnly_commit (storeStates_within _ _ _)⟩
  rw [State.commit_mem, storedBy, loadStates_storeStates]
  intro j hj
  match j, hj with
  | 0, _ | 1, _ | 2, _ | 3, _ => rfl

end Sys2Proof.Machine
end

