-- ==== Sys2Proof/Proofs/PackedPermutation.lean ====
section
/-! PROOFS. Proofs/PackedPermutation.lean: permuting a packed state is permuting each of its states as a 64-bit state, by
commands (R195) and by the kernels' adapters (R265). -/

namespace Sys2Proof.Machine

/-! ### Packing around the permutation (R195, R265) -/

section
variable {n : Nat}

theorem unpackStates_get_state (V : KState 64 n) (j : Fin n) : (unpackStates V)[j] = stateOf V j := by
  simp [unpackStates, stateOf]

/-- Unpacking a permuted vector state gives the states permuted one by one. -/
theorem unpackStates_permute (V : KState 64 n) (nr : Nat) :
    unpackStates (permute 24 nr V) = (unpackStates V).map (permuteW64 nr) := by
  refine Vector.ext fun j hj => ?_
  rw [Vector.getElem_map]
  have hleft := unpackStates_get_state (permute 24 nr V) ⟨j, hj⟩
  have hright := unpackStates_get_state V ⟨j, hj⟩
  simp only [Fin.getElem_fin] at hleft hright
  rw [hleft, hright, stateOf_permute]

/-- Packing the states permuted one by one is the permuted vector state. -/
theorem packStates_map_permuteW64 (V : KState 64 n) (nr : Nat) :
    packStates ((unpackStates V).map (permuteW64 nr)) = permute 24 nr V := by
  rw [← unpackStates_permute, packStates_unpackStates]

/-- Pack, permute and unpack on the buffer at `base`, as memory to memory. -/
theorem loadStates_pack_permute_unpack (m : Memory) (base nr : Nat) :
    let m₁ := storeState m base (packStates (loadStates m base n))
    let m₂ := storeState m₁ base (permute 24 nr (loadState m₁ base 64 n))
    loadStates (storeStates m₂ base (unpackStates (loadState m₂ base 64 n))) base n =
      (loadStates m base n).map (permuteW64 nr) := by
  simp only [loadStates_storeStates, loadState_storeState (w := 64) rfl, unpackStates_permute, unpackStates_packStates]

end

/-- The vector lane types: N(L) states of 64-bit elements, in a buffer that PACK and UNPACK take. -/
theorem vector_lane_type {lt : LaneType} (hlt : lt ∈ [LaneType.v2, .v4, .v8]) : lt.maxR = 24 ∧ lt.align = 8 ∧
    lt.bufferBytes = 200 * lt.elems ∧ (lt.elems = 2 ∨ lt.elems = 4 ∨ lt.elems = 8) := by
  cases lt <;> simp_all [LaneType.maxR, LaneType.align, LaneType.bufferBytes, LaneType.elems, LaneType.width]

/-- The three commands on one ready buffer complete and map the 64-bit permutation over its states (R195). -/
theorem runAll_pack_permute_unpack {s : State} {lt : LaneType} {ns : BitVec 4} {nr : BitVec 5}
    (hlt : lt ∈ [LaneType.v2, .v4, .v8]) (hns : ns.toNat = lt.elems) (hnr : nr.toNat ≤ 24) (hr : s.ReadyFor lt) :
    ∃ t, runAll [.pack ns, .permute lt ns nr, .unpack ns] s = .next t ∧
      loadStates t.mem s.regs.base lt.elems = (loadStates s.mem s.regs.base lt.elems).map (permuteW64 nr.toNat) := by
  obtain ⟨hmax, halign, hsize, helems⟩ := vector_lane_type hlt
  have hvec : nsIsVector ns = true := decide_eq_true (hns ▸ helems)
  have hready : s.Ready 8 (200 * ns.toNat) := by rwa [State.ReadyFor, halign, hsize, ← hns] at hr
  rw [runAll_cons (exec_pack hvec hready), runAll_cons (permute_applies hns (hmax ▸ hnr) _ (hr.commit ..)),
    runAll_cons (exec_unpack hvec ((hready.commit ..).commit ..)), runAll]
  refine ⟨_, rfl, ?_⟩
  have key := loadStates_pack_permute_unpack (n := lt.elems) s.mem s.regs.base nr.toNat
  simp only [State.commit_mem, State.commit_regs, State.operand]
  rw [hns]
  simp only [List.mem_cons, List.not_mem_nil, or_false] at hlt
  obtain rfl | rfl | rfl := hlt
  all_goals exact key

/-- Settles O35: the packed states are permuted in lockstep. -/
theorem packPermuteUnpack : Obligations.PackPermuteUnpack := by
  intro s lt ns nr hlt hns hnr hr
  obtain ⟨t, ht, hload⟩ := runAll_pack_permute_unpack hlt hns hnr hr
  exact ⟨t, ht, fun j hj => by rw [hload, Vector.getElem_map]⟩

/-- Settles O46: the kernels map the 64-bit permutation over the unpacked states. -/
theorem kernelAdaptersArePortable : Obligations.KernelAdaptersArePortable := by
  refine ⟨fun V nr _ => ?_, fun V nr _ => ?_⟩
  · rw [← packStates_map_permuteW64 V nr]
    congr 1
    refine Vector.ext fun j hj => ?_
    match j, hj with
    | 0, _ | 1, _ => simp [arm2]
  · rw [← packStates_map_permuteW64 V nr]
    congr 1
    refine Vector.ext fun j hj => ?_
    match j, hj with
    | 0, _ | 1, _ | 2, _ | 3, _ => simp [avx4]

end Sys2Proof.Machine
end

