-- ==== Sys2Proof/Proofs/Kernels.lean ====
section
/-! PROOFS. Proofs/Kernels.lean: the rounds of the two kernels on their vector registers act on each element as the round on
one 64-bit state (R225 to R227, R242, R244). -/

namespace Sys2Proof.Machine

/-! ### Registers of 64-bit elements (R225, R244) -/

/-- `el` takes a 64-bit element of a register, and the bitwise operations act on it alone. -/
structure ElementOf {b : Nat} (el : BitVec b → BitVec 64) : Prop where
  xor : ∀ r r', el (r ^^^ r') = el r ^^^ el r'
  and : ∀ r r', el (r &&& r') = el r &&& el r'
  not : ∀ r, el (~~~r) = ~~~el r

/-- The state that one element of every register holds. -/
def stateOfRegs {b : Nat} (el : BitVec b → BitVec 64) (A : LaneRegs b) : KState 64 1 :=
  Vector.ofFn fun k => Vector.replicate 1 (el A[k])

section
variable {b : Nat} {el : BitVec b → BitVec 64}

@[simp] theorem regAt_ofRegs (f : Fin 5 → Fin 5 → BitVec b) (x y : Fin 5) : regAt (ofRegs f) x y = f x y := by
  have hcol : (5 * y.val + x.val) % 5 = x.val := by omega
  have hrow : (5 * y.val + x.val) / 5 = y.val := by omega
  simp [regAt, ofRegs, laneIndex, hcol, hrow]

theorem stateOfRegs_get (A : LaneRegs b) {k : Nat} (hk : k < 25) : (stateOfRegs el A)[k] = bcast 1 (el A[k]) :=
  Vector.getElem_ofFn _

theorem laneAt_stateOfRegs (A : LaneRegs b) (x y : Fin 5) : laneAt (stateOfRegs el A) x y = bcast 1 (el (regAt A x y)) :=
  stateOfRegs_get A _

theorem laneXor_bcast (u v : BitVec 64) : laneXor (bcast 1 u) (bcast 1 v) = bcast 1 (u ^^^ v) := rfl
theorem laneAnd_bcast (u v : BitVec 64) : laneAnd (bcast 1 u) (bcast 1 v) = bcast 1 (u &&& v) := rfl
theorem laneNot_bcast (u : BitVec 64) : laneNot (bcast 1 u) = bcast 1 (~~~u) := rfl
theorem laneRotl_bcast (u : BitVec 64) (k : Nat) : laneRotl (bcast 1 u) k = bcast 1 (rotl u k) := rfl

@[simp] theorem ofFn_get_fin {β : Type} (f : Fin 5 → β) (x : Fin 5) : (Vector.ofFn f)[x] = f x := Vector.getElem_ofFn _

/-- The parity of a column at one element of the registers. -/
def elemParity (el : BitVec b → BitVec 64) (A : LaneRegs b) (x : Fin 5) : BitVec 64 :=
  el (regAt A x 0) ^^^ el (regAt A x 1) ^^^ el (regAt A x 2) ^^^ el (regAt A x 3) ^^^ el (regAt A x 4)

/-- Theta on the state of one element, lane by lane (R130). -/
theorem laneAt_theta_stateOfRegs (A : LaneRegs b) (x y : Fin 5) : laneAt (theta (stateOfRegs el A)) x y =
    bcast 1 (el (regAt A x y) ^^^ (elemParity el A (x + 4) ^^^ rotl (elemParity el A (x + 1)) 1)) := by
  simp only [laneAt_theta, thetaEffect_get, columnParities_get, laneAt_stateOfRegs, laneXor_bcast, laneRotl_bcast,
    elemParity]

/-- Iota on the registers: the constant in every element of lane 0. -/
theorem stateOfRegs_iota (hel : ElementOf el) (A : LaneRegs b) {c : BitVec b} {i : Nat} (hc : el c = rc i) :
    stateOfRegs el (A.set 0 (A[0] ^^^ c)) = iota i (stateOfRegs el A) := by
  refine Vector.ext fun k hk => ?_
  by_cases hzero : k = 0
  · subst hzero
    rw [stateOfRegs_get, iota_lane_zero, stateOfRegs_get, Vector.getElem_set_self, hel.xor, hc]
    exact (laneXor_bcast _ _).symm
  · rw [stateOfRegs_get, iota_lane_of_ne_zero i _ hk hzero, stateOfRegs_get, Vector.getElem_set_ne _ _ (Ne.symm hzero)]

/-- Rounds that act as the round on one element's state give the permutation of that state. -/
theorem stateOfRegs_rounds {round : Nat → LaneRegs b → LaneRegs b}
    (hround : ∀ i A, stateOfRegs el (round i A) = keccakRound i (stateOfRegs el A)) :
    ∀ (is : List Nat) (A : LaneRegs b), stateOfRegs el (is.foldl (fun A i => round i A) A) = rounds is (stateOfRegs el A)
  | [], _ => rfl
  | i :: is, A => by rw [List.foldl_cons, stateOfRegs_rounds hround is, hround, rounds_cons]

end

/-- A field inside a register is complemented with it. -/
theorem extractLsb'_not_of_le {b start len : Nat} (r : BitVec b) (h : start + len ≤ b) :
    (~~~r).extractLsb' start len = ~~~(r.extractLsb' start len) :=
  BitVec.eq_of_getLsbD_eq fun i hi => by
    have hin : start + i < b := by omega
    simp [hi, hin]

theorem rotl_eq_shifts (v : BitVec 64) {r : Nat} (h0 : r ≠ 0) (h : r < 64) : rotl v r = v <<< r ||| v >>> (64 - r) := by
  rw [rotl, Nat.mod_eq_of_lt h, if_neg h0]

/-- The rho offsets are below the width of a 64-bit lane. -/
theorem rhoPos_lt (x y : Fin 5) : rhoPos x y < 64 := by decide +revert

/-- Only lane (0, 0) has offset 0. -/
theorem rhoPos_eq_zero_iff (x y : Fin 5) : rhoPos x y = 0 ↔ x = 0 ∧ y = 0 := by decide +revert

/-! ### The ARM kernel (R225 to R227) -/

section
variable (e : Fin 2)

theorem elementOf_elem128 : ElementOf (elem128 · e) where
  xor _ _ := BitVec.extractLsb'_xor
  and _ _ := BitVec.extractLsb'_and
  not r := extractLsb'_not_of_le r (by omega)

@[simp] theorem elem128_of128 (f : Fin 2 → BitVec 64) : elem128 (of128 f) e = f e := by
  match e with
  | 0 => exact BitVec.extractLsb'_append_eq_right
  | 1 => exact BitVec.extractLsb'_append_eq_left

@[simp] theorem elem128_xor (r r' : BitVec 128) : elem128 (r ^^^ r') e = elem128 r e ^^^ elem128 r' e :=
  (elementOf_elem128 e).xor r r'

@[simp] theorem elem128_and (r r' : BitVec 128) : elem128 (r &&& r') e = elem128 r e &&& elem128 r' e :=
  (elementOf_elem128 e).and r r'

@[simp] theorem elem128_not (r : BitVec 128) : elem128 (~~~r) e = ~~~elem128 r e := (elementOf_elem128 e).not r

theorem armUnpack_eq (A : LaneRegs 128) : armUnpack A e = stateOfRegs (elem128 · e) A := rfl

/-- XAR's right rotation by the complement of an offset is the left rotation by it (R226). -/
theorem rotr64_complement (v : BitVec 64) {r : Nat} (h : r < 64) : rotr64 v ((64 - r) % 64) = rotl v r := by
  have hback : (64 - (64 - r) % 64) % 64 = r := by omega
  rw [rotr64, hback]

theorem elem128_armParity (A : LaneRegs 128) (x : Fin 5) : elem128 (armParity A x) e = elemParity (elem128 · e) A x := by
  simp only [armParity, eor3, elem128_xor, elemParity]

theorem armUnpack_thetaRhoPi (A : LaneRegs 128) : armUnpack (armThetaRhoPi A) e = rhopi (theta (armUnpack A e)) := by
  refine ext_laneAt fun x y => ?_
  simp only [armUnpack_eq, laneAt_rhopi_source, laneAt_theta_stateOfRegs, laneAt_stateOfRegs, laneRotl_bcast,
    armThetaRhoPi, regAt_ofRegs, ofFn_get_fin, xar, rax1, elem128_of128, elem128_armParity,
    rotr64_complement _ (rhoPos_lt _ _)]

theorem armUnpack_chi (A : LaneRegs 128) : armUnpack (armChi A) e = chi (armUnpack A e) := by
  refine ext_laneAt fun x y => ?_
  simp only [armUnpack_eq, laneAt_chi, laneAt_stateOfRegs, laneXor_bcast, laneAnd_bcast, laneNot_bcast, armChi,
    regAt_ofRegs, bcax, elem128_xor, elem128_and, elem128_not, BitVec.and_comm]

theorem armUnpack_round (i : Nat) (A : LaneRegs 128) : armUnpack (armRound i A) e = keccakRound i (armUnpack A e) := by
  have hiota := stateOfRegs_iota (elementOf_elem128 e) (armChi (armThetaRhoPi A)) (elem128_of128 e fun _ => rc i)
  rw [keccakRound, ← armUnpack_thetaRhoPi, ← armUnpack_chi]
  exact hiota

theorem armUnpack_pack (T0 T1 : KState 64 1) : armUnpack (armPack T0 T1) e = if e = 0 then T0 else T1 := by
  refine Vector.ext fun k hk => Vector.ext fun j hj => ?_
  obtain rfl : j = 0 := by omega
  match e with
  | 0 => simp [armUnpack, armPack]
  | 1 => simp [armUnpack, armPack]

end

/-- Settles O39: each round on the registers is the round on each element's state. -/
theorem armFusedKernelComputesArm2 : Obligations.ArmFusedKernelComputesArm2 := by
  intro T0 T1 nr _ _
  have hstate (e : Fin 2) := (stateOfRegs_rounds (armUnpack_round e) (roundWindow 24 nr) (armPack T0 T1)).trans
    (congrArg (rounds _) (armUnpack_pack e T0 T1))
  exact Prod.ext (hstate 0) (hstate 1)

/-! ### The AVX2 kernel (R242, R244) -/

section
variable (e : Fin 4)

theorem elementOf_elem256 : ElementOf (elem256 · e) where
  xor _ _ := BitVec.extractLsb'_xor
  and _ _ := BitVec.extractLsb'_and
  not r := extractLsb'_not_of_le r (by omega)

@[simp] theorem elem256_xor (r r' : BitVec 256) : elem256 (r ^^^ r') e = elem256 r e ^^^ elem256 r' e :=
  (elementOf_elem256 e).xor r r'

@[simp] theorem elem256_and (r r' : BitVec 256) : elem256 (r &&& r') e = elem256 r e &&& elem256 r' e :=
  (elementOf_elem256 e).and r r'

@[simp] theorem elem256_not (r : BitVec 256) : elem256 (~~~r) e = ~~~elem256 r e := (elementOf_elem256 e).not r

@[simp] theorem elem256_of256 (f : Fin 4 → BitVec 64) : elem256 (of256 f) e = f e := by
  match e with
  | 0 => exact BitVec.extractLsb'_append_eq_right
  | 1 => exact (BitVec.extractLsb'_append_eq_of_le (xhi := f 3 ++ f 2 ++ f 1) (xlo := f 0) (by decide)).trans
            BitVec.extractLsb'_append_eq_right
  | 2 => exact (BitVec.extractLsb'_append_eq_of_le (xhi := f 3 ++ f 2 ++ f 1) (xlo := f 0) (by decide)).trans <|
            (BitVec.extractLsb'_append_eq_of_le (xhi := f 3 ++ f 2) (xlo := f 1) (by decide)).trans
            BitVec.extractLsb'_append_eq_right
  | 3 => exact (BitVec.extractLsb'_append_eq_of_le (xhi := f 3 ++ f 2 ++ f 1) (xlo := f 0) (by decide)).trans <|
            (BitVec.extractLsb'_append_eq_of_le (xhi := f 3 ++ f 2) (xlo := f 1) (by decide)).trans
            BitVec.extractLsb'_append_eq_left

/-- Two shifts and an OR rotate each element by an amount from 1 to 63 (R190). -/
theorem elem256_avx2Rotl (r : BitVec 256) {n : Nat} (h0 : n ≠ 0) (h : n < 64) :
    elem256 (avx2Rotl r n) e = rotl (elem256 r e) n := by
  rw [avx2Rotl, elem256_of256, rotl_eq_shifts _ h0 h]

theorem avx2Unpack_eq (A : LaneRegs 256) : avx2Unpack A e = stateOfRegs (elem256 · e) A := rfl

theorem elem256_avx2Parity (A : LaneRegs 256) (x : Fin 5) :
    elem256 (avx2Parity A x) e = elemParity (elem256 · e) A x := by
  simp only [avx2Parity, elem256_xor, elemParity]

theorem avx2Unpack_theta (A : LaneRegs 256) : avx2Unpack (avx2Theta A) e = theta (avx2Unpack A e) := by
  refine ext_laneAt fun x y => ?_
  simp only [avx2Unpack_eq, laneAt_theta_stateOfRegs, laneAt_stateOfRegs, avx2Theta, regAt_ofRegs, ofFn_get_fin,
    elem256_xor, elem256_avx2Rotl e _ one_ne_zero (by decide : 1 < 64), elem256_avx2Parity]

/-- Lane (0, 0) is pi's own source. -/
theorem piSource_zero : piSource 0 0 = (0, 0) := rfl

theorem piSource_eq_zero {x y : Fin 5} (h : (piSource x y).1 = 0 ∧ (piSource x y).2 = 0) : x = 0 ∧ y = 0 := by
  revert h
  simp only [piSource]
  decide +revert

/-- Every lane but (0, 0) is rotated by an amount from 1 to 62, which two shifts build. -/
theorem avx2Unpack_rhopi (A : LaneRegs 256) : avx2Unpack (avx2RhoPi A) e = rhopi (avx2Unpack A e) := by
  refine ext_laneAt fun x y => ?_
  simp only [avx2Unpack_eq, laneAt_rhopi_source, laneAt_stateOfRegs, laneRotl_bcast, avx2RhoPi, regAt_ofRegs]
  split
  next hzero =>
    obtain ⟨rfl, rfl⟩ := hzero
    have hoffset : rhoPos 0 0 = 0 := rfl
    rw [piSource_zero, hoffset]
    simp [rotl]
  next hne =>
    have hoffset : rhoPos (piSource x y).1 (piSource x y).2 ≠ 0 :=
      fun h => hne (piSource_eq_zero ((rhoPos_eq_zero_iff _ _).mp h))
    rw [elem256_avx2Rotl e _ hoffset (rhoPos_lt _ _)]

theorem avx2Unpack_chi (A : LaneRegs 256) : avx2Unpack (avx2Chi A) e = chi (avx2Unpack A e) := by
  refine ext_laneAt fun x y => ?_
  simp only [avx2Unpack_eq, laneAt_chi, laneAt_stateOfRegs, laneXor_bcast, laneAnd_bcast, laneNot_bcast, avx2Chi,
    regAt_ofRegs, elem256_xor, elem256_and, elem256_not]

theorem avx2Unpack_round (i : Nat) (A : LaneRegs 256) :
    avx2Unpack (avx2Round i A) e = keccakRound i (avx2Unpack A e) := by
  have hiota := stateOfRegs_iota (elementOf_elem256 e) (avx2Chi (avx2RhoPi (avx2Theta A))) (elem256_of256 e fun _ => rc i)
  rw [keccakRound, ← avx2Unpack_theta, ← avx2Unpack_rhopi, ← avx2Unpack_chi]
  exact hiota

theorem avx2Unpack_pack (T : KStates 4) : avx2Unpack (avx2Pack T) e = T[e] := by
  refine Vector.ext fun k hk => Vector.ext fun j hj => ?_
  obtain rfl : j = 0 := by omega
  simp [avx2Unpack, avx2Pack]

end

/-- Settles O40: each round on the registers is the round on each element's state. -/
theorem avx2ShiftKernelComputesAvx4 : Obligations.Avx2ShiftKernelComputesAvx4 := by
  intro T nr _ _
  have hstate (e : Fin 4) : (avx2Kernel T nr)[e] = permuteW64 nr T[e] := by
    have hrounds : avx2Unpack ((roundWindow 24 nr).foldl (fun A i => avx2Round i A) (avx2Pack T)) e =
        rounds (roundWindow 24 nr) (avx2Unpack (avx2Pack T) e) := stateOfRegs_rounds (avx2Unpack_round e) _ _
    rw [avx2Unpack_pack] at hrounds
    exact (Vector.getElem_ofFn _).trans hrounds
  exact Prod.ext (hstate 0) (Prod.ext (hstate 1) (Prod.ext (hstate 2) (hstate 3)))

end Sys2Proof.Machine
end

