-- ==== Sys2Proof/Proofs/Noninterference.lean ====
section
/-! PROOFS. Proofs/Noninterference.lean: what a command's outcome depends on: the check table (R303), the bytes of its buffer
(R67, R178), and never the working state (R34). -/

namespace Sys2Proof.Machine

/-! ### The check table (R303) -/

/-- Settles O47: the search for the first failing row decides the outcome, and with none the command completes. -/
theorem firstFailingCheckDecides : Obligations.FirstFailingCheckDecides := by
  intro s v
  obtain ⟨t, ht, hstatus⟩ := runWord_eq_elim v s
  exact ⟨fun r hr => by rw [ht, hr, Option.elim_some], fun hnone => ⟨t, by rw [ht, hnone, Option.elim_none], hstatus⟩⟩

/-! ### Two states that pass the same checks -/

/-- The checks of a memory command in order, as rows: its own, then those of its buffer. -/
def memoryRows (s : State) (i : Instr) (align size : Nat) : List (Bool × RowOutcome) :=
  (preChecks s i).map (fun p => (p.1, .aborts p.2)) ++ bufferRows s align size

theorem requireAll_eq_decideRows (l : List (Bool × AbortCode)) (s : State) (k : Out) :
    requireAll l s k = decideRows (l.map fun p => (p.1, .aborts p.2)) s k := by
  rw [decideRows, List.foldr_map]
  rfl

section
variable {s s' : State} {i : Instr} {align size : Nat}

theorem exec_of_buffer_eq_memoryRows (hb : bufferOf s i = some (align, size)) :
    exec i s = decideRows (memoryRows s i align size) s
      (.next (s.commit s.regs.base size (storedBy s.regs.sel i s.mem s.regs.base))) := by
  rw [exec_of_buffer hb, requireAll_eq_decideRows, onBuffer_eq_decideRows, ← decideRows_append, memoryRows]

/-- The checks read the thread's registers, the host and the overlaps on record, and nothing else. -/
structure SameChecks (s s' : State) : Prop where
  regs : s'.regs = s.regs
  host : s'.host = s.host
  overlaps : ∀ base n, s'.overlaps base n = s.overlaps base n

theorem SameChecks.memoryRows (h : SameChecks s s') (i : Instr) (align size : Nat) :
    memoryRows s' i align size = memoryRows s i align size := by
  rw [Machine.memoryRows, Machine.memoryRows, bufferRows, bufferRows, preChecks_congr i h.regs h.host, h.regs, h.host,
    h.overlaps]

/-- Under the same checks a memory command fails the same row in both states, or completes in both. -/
theorem SameChecks.exec (h : SameChecks s s') (hb : bufferOf s i = some (align, size)) :
    (∃ r : RowOutcome, exec i s = r.outcome s ∧ exec i s' = r.outcome s') ∨
    (exec i s = .next (s.commit s.regs.base size (storedBy s.regs.sel i s.mem s.regs.base)) ∧
      exec i s' = .next (s'.commit s.regs.base size (storedBy s.regs.sel i s'.mem s.regs.base))) := by
  have hb' : bufferOf s' i = some (align, size) := (bufferOf_congr i h.regs).trans hb
  rw [exec_of_buffer_eq_memoryRows hb, exec_of_buffer_eq_memoryRows hb', h.memoryRows, h.regs, decideRows_eq_elim,
    decideRows_eq_elim]
  cases ((Machine.memoryRows s i align size).find? fun row => !row.1).map Prod.snd with
  | none => exact .inr ⟨rfl, rfl⟩
  | some r => exact .inl ⟨r, rfl, rfl⟩

end

/-! ### Memory outside the buffer (R67, R178) -/

/-- Settles O54: memory decides no check, and the bytes a store leaves in the buffer depend on those that were there. -/
theorem commandsReadOnlyTheirBuffer : Obligations.CommandsReadOnlyTheirBuffer := by
  intro i s t m align size hb hm h
  have hsame : SameChecks s { s with mem := m } := ⟨rfl, rfl, fun _ _ => rfl⟩
  rcases hsame.exec hb with ⟨r, hr, hr'⟩ | ⟨hdone, hdone'⟩
  · rw [h] at hr
    cases r with
    | aborts code =>
      cases hr
      refine ⟨_, hr', ?_, hm⟩
      rw [State.takeAbort_regs, State.takeAbort_regs, hsame.regs]
    | refuses r => cases hr
    | stuck f => cases hr
  · rw [h] at hdone
    cases hdone
    refine ⟨_, hdone', ?_, fun a hlo hhi => ?_⟩
    · rw [State.commit_regs, State.commit_regs, hsame.regs]
    · rw [State.commit_mem, State.commit_mem]
      exact storedBy_agree hb hm (hm a hlo hhi)

/-! ### The working state (R34) -/

/-- The state with another working state. -/
def State.withWork (s : State) (w : EngineWork) (n : Nat) : State := { s with work := w, freeCount := n }

theorem forgetWork_outcome_withWork (s : State) (w : EngineWork) (n : Nat) (r : RowOutcome) :
    forgetWork (r.outcome (s.withWork w n)) = forgetWork (r.outcome s) := by cases r <;> rfl

theorem forgetWork_require_withWork {s : State} {w : EngineWork} {n : Nat} {k k' : Out} (c : Bool) (code : AbortCode)
    (hk : forgetWork k' = forgetWork k) :
    forgetWork (require c code (s.withWork w n) k') = forgetWork (require c code s k) := by
  cases c
  · rfl
  · exact hk

/-- Settles O55: the working state decides no check and enters no result. -/
theorem workingStateIsNeverRead : Obligations.WorkingStateIsNeverRead := by
  intro i s w n
  change forgetWork (exec i (s.withWork w n)) = forgetWork (exec i s)
  cases hb : bufferOf s i with
  | some buffer =>
    have hsame : SameChecks s (s.withWork w n) := ⟨rfl, rfl, fun _ _ => rfl⟩
    rcases hsame.exec hb with ⟨r, hr, hr'⟩ | ⟨hdone, hdone'⟩
    · rw [hr, hr', forgetWork_outcome_withWork]
    · rw [hdone, hdone']
      rfl
  | none =>
    cases i with
    | probe => rfl
    | dispatch lt nr => exact forgetWork_require_withWork _ _ (forgetWork_require_withWork _ _ rfl)
    | pdegree => exact forgetWork_require_withWork _ _ rfl
    | _ => cases hb

end Sys2Proof.Machine
end

