-- ==== Sys2Proof/Proofs/ConcurrentCommands.lean ====
section
/-! PROOFS. Proofs/ConcurrentCommands.lean: commands of different threads on disjoint buffers commute, on overlapping ones the
second is refused, and which buffers are on record (R73, D22). -/

namespace Sys2Proof.Machine

/-! ### A completed command of a thread -/

@[simp] theorem State.onThread_regs (s : State) (u : Nat) : (s.onThread u).regs = s.regsOf u := rfl

/-- Memory command `i` of thread `u` passed its checks in `s` and completed in `t`. -/
structure CompletedOn (s : State) (u : Nat) (i : Instr) (align size : Nat) (t : State) : Prop where
  buffer : bufferOf (s.onThread u) i = some (align, size)
  checks : ∀ p ∈ preChecks (s.onThread u) i, p.1 = true
  ready : (s.onThread u).Ready align size
  result : t = (s.onThread u).commit (s.regsOf u).base size
    (storedBy (s.regsOf u).sel i s.mem (s.regsOf u).base)

section
variable {s t t₁ t₂ : State} {u v : Nat} {i j : Instr} {al₁ size₁ al₂ size₂ : Nat}

/-- A memory command with a next state in which no thread has aborted completed. -/
theorem completedOn_of_exec (hb : bufferOf (s.onThread u) i = some (al₁, size₁)) (h : exec i (s.onThread u) = .next t)
    (ha : t.anyAborted = false) : CompletedOn s u i al₁ size₁ t := by
  rcases exec_next hb h with ⟨code, rfl⟩ | ⟨hc, hr, ht⟩
  · simp [State.takeAbort_anyAborted] at ha
  · exact ⟨hb, hc, hr, ht⟩

theorem CompletedOn.exec_eq (h : CompletedOn s u i al₁ size₁ t) : exec i (s.onThread u) = .next t :=
  (exec_completes h.buffer h.checks h.ready).trans (congrArg _ h.result.symm)

theorem CompletedOn.regsOf (h : CompletedOn s u i al₁ size₁ t) (x : Nat) : t.regsOf x = s.regsOf x := by
  rw [h.result]
  rfl

theorem CompletedOn.cap (h : CompletedOn s u i al₁ size₁ t) : t.cap = s.cap := by
  rw [h.result]
  rfl

theorem CompletedOn.host (h : CompletedOn s u i al₁ size₁ t) : t.host = s.host := by
  rw [h.result]
  rfl

theorem CompletedOn.anyAborted (h : CompletedOn s u i al₁ size₁ t) : t.anyAborted = s.anyAborted := by
  rw [h.result]
  rfl

theorem CompletedOn.mem (h : CompletedOn s u i al₁ size₁ t) :
    t.mem = storedBy (s.regsOf u).sel i s.mem (s.regsOf u).base := by
  rw [h.result, State.commit_mem]

theorem CompletedOn.mem_window (h : CompletedOn s u i al₁ size₁ t) (f : Footprint) :
    f ∈ t.window ↔ f = ⟨u, (s.regsOf u).base, size₁⟩ ∨ f ∈ s.window := by
  rw [h.result, State.mem_commit_window]
  rfl

/-! ### Disjoint buffers -/

/-- After a command of another thread on a disjoint buffer a thread's buffer is as ready as before. -/
theorem CompletedOn.ready_after (h₁ : CompletedOn s u i al₁ size₁ t₁) (hr : (s.onThread v).Ready al₂ size₂)
    (hdisjoint : (s.regsOf u).base + size₁ ≤ (s.regsOf v).base ∨ (s.regsOf v).base + size₂ ≤ (s.regsOf u).base) :
    (t₁.onThread v).Ready al₂ size₂ := by
  obtain ⟨hw, ha, hb, hm, ho⟩ := hr
  simp only [State.Ready, State.onThread_regs, h₁.regsOf]
  refine ⟨hw, ha, ?_, ?_, ?_⟩
  · rw [State.onThread, h₁.host]; exact hb
  · rw [State.onThread, h₁.host]; exact hm
  · rw [← Bool.not_eq_true, State.overlaps_iff] at ho ⊢
    rintro ⟨f, hf, hne, hlo, hhi⟩
    rcases (h₁.mem_window f).mp hf with rfl | hold
    · simp only at hlo hhi
      omega
    · exact ho ⟨f, hold, hne, hlo, hhi⟩

/-- A command that completes completes too after one of another thread on a disjoint buffer. -/
theorem CompletedOn.after (h₁ : CompletedOn s u i al₁ size₁ t₁) (h₂ : CompletedOn s v j al₂ size₂ t₂)
    (hdisjoint : (s.regsOf u).base + size₁ ≤ (s.regsOf v).base ∨ (s.regsOf v).base + size₂ ≤ (s.regsOf u).base) :
    ∃ t, CompletedOn t₁ v j al₂ size₂ t := by
  have hregs : (t₁.onThread v).regs = (s.onThread v).regs := h₁.regsOf v
  have hhost : (t₁.onThread v).host = (s.onThread v).host := h₁.host
  refine ⟨_, ?_, ?_, h₁.ready_after h₂.ready hdisjoint, rfl⟩
  · rw [bufferOf_congr j hregs, h₂.buffer]
  · rw [preChecks_congr j hregs hhost]
    exact h₂.checks

/-- Stores into disjoint buffers leave the same bytes in either order. -/
theorem storedBy_comm {x y : State} (hx : bufferOf x i = some (al₁, size₁)) (hy : bufferOf y j = some (al₂, size₂))
    (hdisjoint : x.regs.base + size₁ ≤ y.regs.base ∨ y.regs.base + size₂ ≤ x.regs.base) (m : Memory) (a : Nat) :
    (storedBy y.regs.sel j (storedBy x.regs.sel i m x.regs.base) y.regs.base).byteAt a =
      (storedBy x.regs.sel i (storedBy y.regs.sel j m y.regs.base) x.regs.base).byteAt a := by
  by_cases hin : x.regs.base ≤ a ∧ a < x.regs.base + size₁
  · rw [(storedBy_within hy _).outside a (by omega)]
    refine storedBy_agree hx (fun a' hlo hhi => ?_) ?_
    · rw [(storedBy_within hy m).outside a' (by omega)]
    · rw [(storedBy_within hy m).outside a (by omega)]
  · rw [(storedBy_within hx (storedBy y.regs.sel j m y.regs.base)).outside a (by omega)]
    refine storedBy_agree hy (fun a' hlo hhi => ?_) ?_
    · rw [(storedBy_within hx m).outside a' (by omega)]
    · rw [(storedBy_within hx m).outside a (by omega)]

/-- Two commands on disjoint buffers complete in either order, with the same bytes, registers and CAP. -/
theorem CompletedOn.commute (h₁ : CompletedOn s u i al₁ size₁ t₁) (h₂ : CompletedOn s v j al₂ size₂ t₂)
    (hdisjoint : (s.regsOf u).base + size₁ ≤ (s.regsOf v).base ∨ (s.regsOf v).base + size₂ ≤ (s.regsOf u).base) :
    ∃ t₁₂ t₂₁, CompletedOn t₁ v j al₂ size₂ t₁₂ ∧ CompletedOn t₂ u i al₁ size₁ t₂₁ ∧
      (∀ a, t₁₂.mem.byteAt a = t₂₁.mem.byteAt a) ∧ (∀ x, t₁₂.regsOf x = t₂₁.regsOf x) ∧ t₁₂.cap = t₂₁.cap := by
  obtain ⟨t₁₂, h₁₂⟩ := h₁.after h₂ hdisjoint
  obtain ⟨t₂₁, h₂₁⟩ := h₂.after h₁ hdisjoint.symm
  refine ⟨t₁₂, t₂₁, h₁₂, h₂₁, fun a => ?_, fun x => ?_, ?_⟩
  · rw [h₁₂.mem, h₂₁.mem, h₁.mem, h₂.mem, h₁.regsOf, h₂.regsOf]
    exact storedBy_comm h₁.buffer h₂.buffer hdisjoint s.mem a
  · rw [h₁₂.regsOf, h₂₁.regsOf, h₁.regsOf, h₂.regsOf]
  · rw [h₁₂.cap, h₂₁.cap, h₁.cap, h₂.cap]

end

/-! ### Overlapping buffers -/

section
variable {s s' : State} {i : Instr} {align size : Nat}

theorem decideRows_of_all {rows : List (Bool × RowOutcome)} (h : ∀ row ∈ rows, row.1 = true) (s : State) (k : Out) :
    decideRows rows s k = k := by
  have hnone : (rows.find? fun row => !row.1) = none := by simpa [List.find?_eq_none] using h
  rw [decideRows_eq_elim, hnone]
  rfl

/-- The last row of a memory command is the refusal of R73. -/
theorem checkRows_eq_dropLast_append (hb : bufferOf s i = some (align, size)) : checkRows s i =
    (checkRows s i).dropLast ++ [(!s.overlaps s.regs.base size, .refuses .overlappingBuffers)] := by
  simp [checkRows, hb]

/-- The rows before the last read the thread's registers and the host alone. -/
theorem checkRows_dropLast_congr (hr : s'.regs = s.regs) (hh : s'.host = s.host) (i : Instr) :
    (checkRows s' i).dropLast = (checkRows s i).dropLast := by
  have hns : requiredNs s' i = requiredNs s i := by cases i <;> simp [requiredNs, hr]
  have hext : extensionPresent s' i = extensionPresent s i := by cases i <;> simp [extensionPresent, hh]
  simp only [checkRows, List.dropLast, hns, hext, bufferOf_congr i hr, hr, hh]

/-- With every row before the last passed, the record of buffers decides. -/
theorem exec_of_dropLast (hi : i.wf = true) (hb : bufferOf s i = some (align, size))
    (hrows : ∀ row ∈ (checkRows s i).dropLast, row.1 = true) :
    exec i s = if s.overlaps s.regs.base size = true then .refused .overlappingBuffers
      else .next (s.commit s.regs.base size (storedBy s.regs.sel i s.mem s.regs.base)) := by
  rw [exec_of_buffer_eq_decideRows hi hb, checkRows_eq_dropLast_append hb, decideRows_append, decideRows_of_all hrows]
  cases s.overlaps s.regs.base size <;> rfl

end

/-- After a completed command one of another thread on an overlapping buffer is refused, and with the record cleared it
completes. -/
theorem CompletedOn.refuses_overlapping {s t : State} {u v : Nat} {i j : Instr} {al₁ size₁ al₂ size₂ : Nat} (hne : u ≠ v)
    (h : CompletedOn s u i al₁ size₁ t) (hb : bufferOf (t.onThread v) j = some (al₂, size₂)) (hj : j.wf = true)
    (hlo : (s.regsOf u).base < (s.regsOf v).base + size₂) (hhi : (s.regsOf v).base < (s.regsOf u).base + size₁)
    (hrows : ∀ row ∈ (checkRows (t.onThread v) j).dropLast, row.1 = true) :
    exec j (t.onThread v) = .refused .overlappingBuffers ∧
      ∃ t', exec j ({ t with window := [] }.onThread v) = .next t' ∧ t'.anyAborted = t.anyAborted := by
  constructor
  · have hover : (t.onThread v).overlaps (t.onThread v).regs.base size₂ = true := by
      rw [State.overlaps_iff, State.onThread_regs, h.regsOf]
      exact ⟨_, (h.mem_window _).mpr (.inl rfl), hne, hlo, hhi⟩
    rw [exec_of_dropLast hj hb hrows, if_pos hover]
  · have hb' : bufferOf ({ t with window := [] }.onThread v) j = some (al₂, size₂) :=
      (bufferOf_congr (s := t.onThread v) j rfl).trans hb
    have hrows' := checkRows_dropLast_congr (s := t.onThread v) (s' := { t with window := [] }.onThread v) rfl rfl j
    exact ⟨_, (exec_of_dropLast hj hb' (hrows' ▸ hrows)).trans (if_neg Bool.false_ne_true), rfl⟩

/-! ### The buffers on record -/

theorem bufferOf_congr_sel {s s' : State} (i : Instr) (h : s'.regs.sel = s.regs.sel) : bufferOf s' i = bufferOf s i := by
  cases i <;> simp [bufferOf, h]

theorem CommandEffect.mem_window {s t : State} {i : Instr} (h : CommandEffect s i t) {f : Footprint} (hf : f ∈ t.window) :
    f ∈ s.window ∨ (f.thread = s.cur ∧ f.base = s.regs.base ∧ ∃ al, bufferOf s i = some (al, f.size)) := by
  cases h with
  | stored _ align size hb =>
    rcases (State.mem_commit_window _ _ _ _ _).mp hf with rfl | hold
    · exact .inr ⟨rfl, rfl, align, hb⟩
    · exact .inl hold
  | aborted | probed | selected | reported => exact .inl hf

/-- A word that runs to a next state aborted, which adds no buffer, or is a command with one of its effects. -/
theorem runWord_commandEffect {v : Word} {s t : State} (h : runWord v s = .next t) :
    t = s.takeAbort .reserved ∨ ∃ i, decode v = .ok i ∧ CommandEffect s i t := by
  cases hd : decode v with
  | ok i => exact .inr ⟨i, rfl, exec_commandEffect ((runWord_of_decode hd s).symm.trans h)⟩
  | error _ =>
    simp only [runWord, hd] at h
    cases h
    exact .inl rfl

/-- A CMD write adds at most the buffer of the command it runs. -/
theorem mem_window_of_command {s t : State} {v : Word} (h : runWord v (s.setCmd v) = .next t) {f : Footprint}
    (hf : f ∈ t.window) : f ∈ s.window ∨ (f.thread = s.cur ∧ f.base = s.regs.base ∧
      ∃ i al, decode v = .ok i ∧ bufferOf s i = some (al, f.size)) := by
  rcases runWord_commandEffect h with rfl | ⟨i, hd, heff⟩
  · exact .inl hf
  · rcases heff.mem_window hf with hold | ⟨hthread, hbase, al, hb⟩
    · exact .inl hold
    · have hsel : bufferOf (s.setCmd v) i = bufferOf s i := bufferOf_congr_sel i (by simp)
      exact .inr ⟨hthread, hbase.trans (by simp), i, al, hd, hsel ▸ hb⟩

/-- The record after a host action: emptied by join and reset; else what there was, and at most one buffer more. -/
theorem HostEffect.window {s t : State} {a : HostAction} (h : HostEffect s a t) :
    (a = .join ∨ a = .reset → t.window = []) ∧
    (a ≠ .join → a ≠ .reset → ∀ f ∈ s.window, f ∈ t.window) ∧
    ∀ f ∈ t.window, f ∈ s.window ∨ (f.thread = s.cur ∧ f.base = s.regs.base ∧
      ∃ v i al, a = .writeReg 0 v ∧ decode (BitVec.ofNat 32 v) = .ok i ∧ bufferOf s i = some (al, f.size)) := by
  cases h with
  | command v _ hrun =>
    refine ⟨by simp, fun _ _ f hf => (runWord_effect hrun).window hf, fun f hf => ?_⟩
    rcases mem_window_of_command hrun hf with hold | ⟨hthread, hbase, i, al, hd, hb⟩
    · exact .inl hold
    · exact .inr ⟨hthread, hbase, v, i, al, rfl, hd, hb⟩
  | baseWritten | ignored | registerRead | byteStored | byteLoaded =>
    exact ⟨by simp, fun _ _ f hf => hf, fun f hf => .inl hf⟩
  | joined | reset => exact ⟨fun _ => rfl, by simp, by simp⟩

/-- Settles O56: disjoint stores commute, the record refuses an overlapping one, and a step's effect on the record is its
action's. -/
theorem disjointCommandsCommute : Obligations.DisjointCommandsCommute := by
  refine ⟨?_, ?_, fun s t e rest hp hstep => (step_next_of_cons hp hstep).window⟩
  · intro s t₁ t₂ u v i j al₁ size₁ al₂ size₂ _ hb₁ hb₂ hdisjoint h₁ h₂ ha₁ ha₂
    have hc₁ := completedOn_of_exec hb₁ h₁ ha₁
    have hc₂ := completedOn_of_exec hb₂ h₂ ha₂
    obtain ⟨t₁₂, t₂₁, h₁₂, h₂₁, hsame⟩ := hc₁.commute hc₂ hdisjoint
    exact ⟨t₁₂, t₂₁, h₁₂.exec_eq, h₂₁.exec_eq, h₁₂.anyAborted.trans ha₁, h₂₁.anyAborted.trans ha₂, hsame⟩
  · intro s t u v i j al₁ size₁ al₂ size₂ hne hb₁ h₁ ha hb₂ hlo hhi hj hrows
    obtain ⟨hrefused, t', ht', habort⟩ :=
      (completedOn_of_exec hb₁ h₁ ha).refuses_overlapping hne hb₂ hj hlo hhi hrows
    exact ⟨hrefused, t', ht', habort.trans ha⟩

end Sys2Proof.Machine
end
